-- ==== Sys2Proof/Word.lean ====
section
/-! DEFINITION. The bit strings of the chipy8 core: a byte (a general register, a timer, a memory cell, an immediate) and a
16-bit word (the instruction word, `I`, `pc`, a stack entry). 00_scope.md R5, R8. -/

namespace Sys2Proof

/-- Eight bits: a general register, a timer, a byte of memory (00_scope.md R5, `REG_W`; 20_memory.md R61). -/
abbrev Byte := BitVec 8

/-- Sixteen bits: an instruction word, the index register, the program counter, a stack entry (00_scope.md R5). -/
abbrev Word := BitVec 16

/-- The low 12 bits of an instruction word, an address operand (30_encoding.md R91). -/
abbrev Addr12 := BitVec 12

/-- The index of a general register, 0 to 15 (10_state.md R20: all 16 can be named in every operand position). -/
abbrev RegIdx := Fin 16

/-- The index of a key, 0 to 15 (10_state.md R27). -/
abbrev Key := Fin 16

end Sys2Proof
end

