-- ==== Sys2Proof/Syntax.lean ====
section
/-! DEFINITION. The instruction set as abstract terms: one constructor per row of spec/opcode_table.json (30_encoding.md
R105). Operands are the fields of R91; `5XYn` and `9XYn` carry no `n`, since the decoder does not inspect it (R108). -/

namespace Sys2Proof

/-- A decoded instruction: the 34 tags of 30_encoding.md R105, and UNKNOWN with its whole word. -/
inductive Instr where
  /-- `00E0`: clear the screen (43_display.md R202). -/
  | cls
  /-- `00EE`: return from a subroutine (40_cycle_and_control.md R122). -/
  | ret
  /-- `0NNN`: call a machine-native routine (R123). -/
  | sys (nnn : Addr12)
  /-- `1NNN`: jump (R124). -/
  | jp (nnn : Addr12)
  /-- `2NNN`: call a subroutine (R125). -/
  | call (nnn : Addr12)
  /-- `3XNN`: skip if VX = NN (R126). -/
  | seImm (x : RegIdx) (nn : Byte)
  /-- `4XNN`: skip if VX ≠ NN (R127). -/
  | sneImm (x : RegIdx) (nn : Byte)
  /-- `5XYn`: skip if VX = VY (R128). -/
  | seReg (x y : RegIdx)
  /-- `6XNN`: set VX (41_alu.md R151). -/
  | ldImm (x : RegIdx) (nn : Byte)
  /-- `7XNN`: add to VX (R152). -/
  | addImm (x : RegIdx) (nn : Byte)
  /-- `8XY0`: copy (R153). -/
  | ldReg (x y : RegIdx)
  /-- `8XY1`: bitwise or (R154). -/
  | or (x y : RegIdx)
  /-- `8XY2`: bitwise and (R155). -/
  | and (x y : RegIdx)
  /-- `8XY3`: bitwise exclusive or (R156). -/
  | xor (x y : RegIdx)
  /-- `8XY4`: add with carry out (R157). -/
  | addReg (x y : RegIdx)
  /-- `8XY5`: subtract, flag = no borrow (R158). -/
  | sub (x y : RegIdx)
  /-- `8XY6`: shift right by one; `Y` carried and unused (R159). -/
  | shr (x y : RegIdx)
  /-- `8XY7`: reverse subtract (R160). -/
  | subn (x y : RegIdx)
  /-- `8XYE`: shift left by one; `Y` carried and unused (R161). -/
  | shl (x y : RegIdx)
  /-- `9XYn`: skip if VX ≠ VY (40_cycle_and_control.md R129). -/
  | sneReg (x y : RegIdx)
  /-- `ANNN`: set the index register (42_index_memory.md R180). -/
  | ldI (nnn : Addr12)
  /-- `BNNN`: jump with offset V0 (40_cycle_and_control.md R130). -/
  | jpV0 (nnn : Addr12)
  /-- `DXYN`: draw an N-row sprite (43_display.md R203). -/
  | drw (x y : RegIdx) (n : Fin 16)
  /-- `EX9E`: skip if key VX is down (44_keypad_timers.md R217). -/
  | skp (x : RegIdx)
  /-- `EXA1`: skip if key VX is up (R218). -/
  | sknp (x : RegIdx)
  /-- `FX07`: read the delay timer (R220). -/
  | ldVxDt (x : RegIdx)
  /-- `FX0A`: wait for a key press (R219). -/
  | ldVxK (x : RegIdx)
  /-- `FX15`: set the delay timer (R221). -/
  | ldDtVx (x : RegIdx)
  /-- `FX18`: set the sound timer (R222). -/
  | ldStVx (x : RegIdx)
  /-- `FX1E`: add VX to the index register (42_index_memory.md R181). -/
  | addI (x : RegIdx)
  /-- `FX29`: point the index register at a font glyph (R182). -/
  | ldF (x : RegIdx)
  /-- `FX33`: store three decimal digits (R183). -/
  | ldB (x : RegIdx)
  /-- `FX55`: store V0 to VX (R184). -/
  | stRegs (x : RegIdx)
  /-- `FX65`: load V0 to VX (R185). -/
  | ldRegs (x : RegIdx)
  /-- A word with no defined case (30_encoding.md R101; 40_cycle_and_control.md R131). -/
  | unknown (w : Word)
  deriving DecidableEq, Repr

end Sys2Proof
end

