-- ==== Sys2Proof/WellFormed.lean ====
section
/-! DEFINITION. Which terms of Instr stand for an instruction word. Register indices, row counts and immediates are bounded
by their types (30_encoding.md R93: every value of every field is legal), so two checks remain: the two words of group 0x0
that are CLS and RET are not SYS (R97), and UNKNOWN carries a word of the class of R101 and no other. -/

namespace Sys2Proof

/-- The UNKNOWN class of 30_encoding.md R101, as the rule lists it: all `Cxxx`; `8XYn` with `n` one of 8 to D or F; `EXkk`
with `kk` neither 9E nor A1; `FXkk` with `kk` none of the nine selector bytes of R100. -/
def unknownWord (w : Word) : Bool :=
  let lead := w.toNat / 0x1000
  let trail := w.toNat % 0x10
  let low := w.toNat % 0x100
  lead == 0xC
    || (lead == 0x8 && [0x8, 0x9, 0xA, 0xB, 0xC, 0xD, 0xF].contains trail)
    || (lead == 0xE && !([0x9E, 0xA1].contains low))
    || (lead == 0xF && !([0x07, 0x0A, 0x15, 0x18, 0x1E, 0x29, 0x33, 0x55, 0x65].contains low))

/-- A term that is the decoding of some word: SYS is not one of the words 00E0 and 00EE (R97), and UNKNOWN holds a word with
no defined case (R101). Every other term is well formed whatever its operands (R93). -/
def Instr.wf : Instr → Bool
  | .sys nnn => nnn != 0x0E0#12 && nnn != 0x0EE#12
  | .unknown w => unknownWord w
  | .cls | .ret | .jp _ | .call _ | .seImm _ _ | .sneImm _ _ | .seReg _ _ | .ldImm _ _ | .addImm _ _ => true
  | .ldReg _ _ | .or _ _ | .and _ _ | .xor _ _ | .addReg _ _ | .sub _ _ | .shr _ _ | .subn _ _ | .shl _ _ => true
  | .sneReg _ _ | .ldI _ | .jpV0 _ | .drw _ _ _ | .skp _ | .sknp _ | .ldVxDt _ | .ldVxK _ | .ldDtVx _ => true
  | .ldStVx _ | .addI _ | .ldF _ | .ldB _ | .stRegs _ | .ldRegs _ => true

end Sys2Proof
end

