-- ==== Sys2Proof/Decode.lean ====
section
/-! DEFINITION. The decoder (30_encoding.md R90 to R101), total on words and rejecting a byte list by name only when it is
too short to hold a word; the encoder (R92, R107); and the opcode table itself (R106) as rows of mask and match. -/

namespace Sys2Proof

/-! ## Fields (R91) -/

/-- `w[15:12]`, the leading nibble. -/
def opOf (w : Word) : BitVec 4 := w.extractLsb' 12 4

/-- `w[11:8]`, the register index `X`. -/
def xOf (w : Word) : RegIdx := (w.extractLsb' 8 4).toFin

/-- `w[7:4]`, the register index `Y`. -/
def yOf (w : Word) : RegIdx := (w.extractLsb' 4 4).toFin

/-- `w[3:0]`, the trailing nibble: sprite height or sub-opcode. -/
def nOf (w : Word) : BitVec 4 := w.extractLsb' 0 4

/-- `w[7:0]`, the trailing byte: immediate or selector. -/
def nnOf (w : Word) : Byte := w.extractLsb' 0 8

/-- `w[11:0]`, the address. -/
def nnnOf (w : Word) : Addr12 := w.extractLsb' 0 12

/-! ## The decoder (R95) -/

/-- Group 0x0 (R97): the comparison with 00E0 and 00EE is on all 16 bits. -/
def decodeGroup0 (w : Word) : Instr :=
  if w = 0x00E0#16 then .cls else if w = 0x00EE#16 then .ret else .sys (nnnOf w)

/-- Group 0x8 (R98): the sub-opcode is the trailing nibble. The numbers 1 to 7 and E are the spec's decision D2 (log entry 2). -/
def decodeGroup8 (w : Word) : Instr :=
  match nOf w with
  | 0x0#4 => .ldReg (xOf w) (yOf w)
  | 0x1#4 => .or (xOf w) (yOf w)
  | 0x2#4 => .and (xOf w) (yOf w)
  | 0x3#4 => .xor (xOf w) (yOf w)
  | 0x4#4 => .addReg (xOf w) (yOf w)
  | 0x5#4 => .sub (xOf w) (yOf w)
  | 0x6#4 => .shr (xOf w) (yOf w)
  | 0x7#4 => .subn (xOf w) (yOf w)
  | 0xE#4 => .shl (xOf w) (yOf w)
  | _ => .unknown w

/-- Group 0xE (R99): the selector is the trailing byte. The numbers are the spec's decision D3 (log entry 3). -/
def decodeGroupE (w : Word) : Instr :=
  match nnOf w with
  | 0x9E#8 => .skp (xOf w)
  | 0xA1#8 => .sknp (xOf w)
  | _ => .unknown w

/-- Group 0xF (R100): the selector is the trailing byte. The numbers 07, 15, 18, 1E, 29 are the spec's decision D3 (log entry 3). -/
def decodeGroupF (w : Word) : Instr :=
  match nnOf w with
  | 0x07#8 => .ldVxDt (xOf w)
  | 0x0A#8 => .ldVxK (xOf w)
  | 0x15#8 => .ldDtVx (xOf w)
  | 0x18#8 => .ldStVx (xOf w)
  | 0x1E#8 => .addI (xOf w)
  | 0x29#8 => .ldF (xOf w)
  | 0x33#8 => .ldB (xOf w)
  | 0x55#8 => .stRegs (xOf w)
  | 0x65#8 => .ldRegs (xOf w)
  | _ => .unknown w

/-- The decoder of R95: a total function of the word alone (R94). Groups 5 and 9 do not look at the trailing nibble (R108, log
entry 6). Group C has no defined case (R96, log entry 4). -/
def decodeWord (w : Word) : Instr :=
  match opOf w with
  | 0x0#4 => decodeGroup0 w
  | 0x1#4 => .jp (nnnOf w)
  | 0x2#4 => .call (nnnOf w)
  | 0x3#4 => .seImm (xOf w) (nnOf w)
  | 0x4#4 => .sneImm (xOf w) (nnOf w)
  | 0x5#4 => .seReg (xOf w) (yOf w)
  | 0x6#4 => .ldImm (xOf w) (nnOf w)
  | 0x7#4 => .addImm (xOf w) (nnOf w)
  | 0x8#4 => decodeGroup8 w
  | 0x9#4 => .sneReg (xOf w) (yOf w)
  | 0xA#4 => .ldI (nnnOf w)
  | 0xB#4 => .jpV0 (nnnOf w)
  | 0xD#4 => .drw (xOf w) (yOf w) (nOf w).toFin
  | 0xE#4 => decodeGroupE w
  | 0xF#4 => decodeGroupF w
  | _ => .unknown w

/-- The word held by two bytes, the one at the lower address in the high half (20_memory.md R64; the spec's decision D1, log
entry 1). -/
def wordOfBytes (first second : Byte) : Word := BitVec.ofNat 16 (first.toNat * 0x100 + second.toNat)

/-- `w[15:8]`, the byte at the lower address. -/
def firstByte (w : Word) : Byte := w.extractLsb' 8 8

/-- `w[7:0]`, the byte at the higher address. -/
def secondByte (w : Word) : Byte := w.extractLsb' 0 8

/-- Why a byte list gives no instruction. A word never does: one with no defined case decodes to UNKNOWN (R94). -/
inductive Reject where
  /-- Fewer than two bytes (R90: every instruction is two bytes). -/
  | truncated
  deriving DecidableEq, Repr

/-- The first instruction of a byte list and the bytes after it. -/
def decode : List Byte → Except Reject (Instr × List Byte)
  | first :: second :: rest => .ok (decodeWord (wordOfBytes first second), rest)
  | [_] => .error .truncated
  | [] => .error .truncated

/-! ## The encoder (R92, R107) -/

/-- Format A: leading nibble, 12-bit address, each at its place among the word's hexadecimal digits. -/
def formatA (op : BitVec 4) (nnn : Addr12) : Word := BitVec.ofNat 16 (op.toNat * 0x1000 + nnn.toNat)

/-- Formats I and K: leading nibble, register, trailing byte (an immediate or a selector). -/
def formatI (op : BitVec 4) (x : RegIdx) (nn : Byte) : Word :=
  BitVec.ofNat 16 (op.toNat * 0x1000 + x.val * 0x100 + nn.toNat)

/-- Formats R and D: leading nibble, two registers, trailing nibble (a sub-opcode or a row count). -/
def formatR (op : BitVec 4) (x y : RegIdx) (n : BitVec 4) : Word :=
  BitVec.ofNat 16 (op.toNat * 0x1000 + x.val * 0x100 + y.val * 0x10 + n.toNat)

/-- The instruction's word, with the canonical 0 in the bits the decoder ignores (R107). -/
def encode : Instr → Word
  | .cls => 0x00E0#16
  | .ret => 0x00EE#16
  | .sys nnn => formatA 0x0#4 nnn
  | .jp nnn => formatA 0x1#4 nnn
  | .call nnn => formatA 0x2#4 nnn
  | .seImm x nn => formatI 0x3#4 x nn
  | .sneImm x nn => formatI 0x4#4 x nn
  | .seReg x y => formatR 0x5#4 x y 0x0#4
  | .ldImm x nn => formatI 0x6#4 x nn
  | .addImm x nn => formatI 0x7#4 x nn
  | .ldReg x y => formatR 0x8#4 x y 0x0#4
  | .or x y => formatR 0x8#4 x y 0x1#4
  | .and x y => formatR 0x8#4 x y 0x2#4
  | .xor x y => formatR 0x8#4 x y 0x3#4
  | .addReg x y => formatR 0x8#4 x y 0x4#4
  | .sub x y => formatR 0x8#4 x y 0x5#4
  | .shr x y => formatR 0x8#4 x y 0x6#4
  | .subn x y => formatR 0x8#4 x y 0x7#4
  | .shl x y => formatR 0x8#4 x y 0xE#4
  | .sneReg x y => formatR 0x9#4 x y 0x0#4
  | .ldI nnn => formatA 0xA#4 nnn
  | .jpV0 nnn => formatA 0xB#4 nnn
  | .drw x y n => formatR 0xD#4 x y (BitVec.ofFin n)
  | .skp x => formatI 0xE#4 x 0x9E#8
  | .sknp x => formatI 0xE#4 x 0xA1#8
  | .ldVxDt x => formatI 0xF#4 x 0x07#8
  | .ldVxK x => formatI 0xF#4 x 0x0A#8
  | .ldDtVx x => formatI 0xF#4 x 0x15#8
  | .ldStVx x => formatI 0xF#4 x 0x18#8
  | .addI x => formatI 0xF#4 x 0x1E#8
  | .ldF x => formatI 0xF#4 x 0x29#8
  | .ldB x => formatI 0xF#4 x 0x33#8
  | .stRegs x => formatI 0xF#4 x 0x55#8
  | .ldRegs x => formatI 0xF#4 x 0x65#8
  | .unknown w => w

/-- The instruction's two bytes as they stand in memory (R90, 20_memory.md R64). -/
def encodeBytes (i : Instr) : List Byte := [firstByte (encode i), secondByte (encode i)]

/-! ## The opcode table (R106) -/

/-- A row of the opcode table: a word `w` matches when `w & mask = value`; `read` is the row's tag with the fields of the row. -/
structure TableRow where
  mask : Word
  value : Word
  read : Word → Instr

/-- The 35 rows of spec/opcode_table.json in ascending priority (R106), UNKNOWN last. -/
def opcodeTable : List TableRow :=
  [⟨0xFFFF#16, 0x00E0#16, fun _ => .cls⟩,
   ⟨0xFFFF#16, 0x00EE#16, fun _ => .ret⟩,
   ⟨0xF000#16, 0x0000#16, fun w => .sys (nnnOf w)⟩,
   ⟨0xF000#16, 0x1000#16, fun w => .jp (nnnOf w)⟩,
   ⟨0xF000#16, 0x2000#16, fun w => .call (nnnOf w)⟩,
   ⟨0xF000#16, 0x3000#16, fun w => .seImm (xOf w) (nnOf w)⟩,
   ⟨0xF000#16, 0x4000#16, fun w => .sneImm (xOf w) (nnOf w)⟩,
   ⟨0xF000#16, 0x5000#16, fun w => .seReg (xOf w) (yOf w)⟩,
   ⟨0xF000#16, 0x6000#16, fun w => .ldImm (xOf w) (nnOf w)⟩,
   ⟨0xF000#16, 0x7000#16, fun w => .addImm (xOf w) (nnOf w)⟩] ++
  [⟨0xF00F#16, 0x8000#16, fun w => .ldReg (xOf w) (yOf w)⟩,
   ⟨0xF00F#16, 0x8001#16, fun w => .or (xOf w) (yOf w)⟩,
   ⟨0xF00F#16, 0x8002#16, fun w => .and (xOf w) (yOf w)⟩,
   ⟨0xF00F#16, 0x8003#16, fun w => .xor (xOf w) (yOf w)⟩,
   ⟨0xF00F#16, 0x8004#16, fun w => .addReg (xOf w) (yOf w)⟩,
   ⟨0xF00F#16, 0x8005#16, fun w => .sub (xOf w) (yOf w)⟩,
   ⟨0xF00F#16, 0x8006#16, fun w => .shr (xOf w) (yOf w)⟩,
   ⟨0xF00F#16, 0x8007#16, fun w => .subn (xOf w) (yOf w)⟩,
   ⟨0xF00F#16, 0x800E#16, fun w => .shl (xOf w) (yOf w)⟩] ++
  [⟨0xF000#16, 0x9000#16, fun w => .sneReg (xOf w) (yOf w)⟩,
   ⟨0xF000#16, 0xA000#16, fun w => .ldI (nnnOf w)⟩,
   ⟨0xF000#16, 0xB000#16, fun w => .jpV0 (nnnOf w)⟩,
   ⟨0xF000#16, 0xD000#16, fun w => .drw (xOf w) (yOf w) (nOf w).toFin⟩,
   ⟨0xF0FF#16, 0xE09E#16, fun w => .skp (xOf w)⟩,
   ⟨0xF0FF#16, 0xE0A1#16, fun w => .sknp (xOf w)⟩,
   ⟨0xF0FF#16, 0xF007#16, fun w => .ldVxDt (xOf w)⟩,
   ⟨0xF0FF#16, 0xF00A#16, fun w => .ldVxK (xOf w)⟩,
   ⟨0xF0FF#16, 0xF015#16, fun w => .ldDtVx (xOf w)⟩,
   ⟨0xF0FF#16, 0xF018#16, fun w => .ldStVx (xOf w)⟩,
   ⟨0xF0FF#16, 0xF01E#16, fun w => .addI (xOf w)⟩,
   ⟨0xF0FF#16, 0xF029#16, fun w => .ldF (xOf w)⟩,
   ⟨0xF0FF#16, 0xF033#16, fun w => .ldB (xOf w)⟩,
   ⟨0xF0FF#16, 0xF055#16, fun w => .stRegs (xOf w)⟩,
   ⟨0xF0FF#16, 0xF065#16, fun w => .ldRegs (xOf w)⟩,
   ⟨0x0000#16, 0x0000#16, fun w => .unknown w⟩]

/-- The first row that matches, tried in order (R106). -/
def firstMatch (w : Word) : List TableRow → Option Instr
  | [] => none
  | row :: rows => if w &&& row.mask = row.value then some (row.read w) else firstMatch w rows

/-! ## The host's reading of a table word -/

/-- The word of a table row's `nbits` low bits, the bits above them 0. -/
def tableWord (nbits w : Nat) : Word := BitVec.ofNat 16 (w % 2 ^ nbits)

/-- The instruction the decoder reads from the two bytes that hold the table word `w`, most significant byte first. -/
def decodeTableWord (nbits w : Nat) : Option Instr :=
  match decode [firstByte (tableWord nbits w), secondByte (tableWord nbits w)] with
  | .ok (i, _) => some i
  | .error _ => none

end Sys2Proof
end

