-- ==== Sys2Proof/Config.lean ====
section
/-! DEFINITION. The implementation parameters of 00_scope.md R5, each with the value this hardware takes. They are kept
as named constants, as 93_implementation_defined.md U1 asks, so that a corrected literal changes one line. The spec leaves no
VALUE open (no instruction has an undefined result), so there is no free value here. -/

namespace Sys2Proof.Config

/-- `MEM_SIZE`: bytes of memory, addresses 0 to 4095 (R5). -/
abbrev memSize : Nat := 4096

/-- `ENTRY`: load address of the program and reset value of `pc` (R5, R281). -/
abbrev entry : Nat := 0x200

/-- `STACK_DEPTH`: the most return addresses the stack holds (R5, R24). -/
abbrev stackDepth : Nat := 16

/-- `FB_W`: framebuffer width in pixels (R5, R200). -/
abbrev fbW : Nat := 64

/-- `FB_H`: framebuffer height in pixels (R5, R200). -/
abbrev fbH : Nat := 32

/-- `INSTR_BYTES`: bytes per instruction word (R5, R90). -/
abbrev instrBytes : Nat := 2

/-- `FONT_BASE`: address of the glyph of digit 0. The spec's decision D14 (R182); log entry 14. -/
abbrev fontBase : Nat := 0x000

/-- `FONT_STRIDE`: bytes per glyph. From general knowledge, the spec's decision D14 (R182); log entry 14. -/
abbrev fontStride : Nat := 5

end Sys2Proof.Config
end

