-- ==== Sys2Proof/Machine/State.lean ====
section
/-! DEFINITION. The machine's state as plain data: every piece of 10_state.md R32, the host's inputs and the answers of the
connection list (70_reset_and_hazards.md R293), and the state after reset (R34). -/

namespace Sys2Proof.Machine

/-- The four fault kinds of 60_exceptions.md R240. They are the values of the LATCH `State.fault`: a fault of this machine is
a next state with the latch set (R242), after which `Tick` and `Reset` still act (R243), so no step answers
`Host.Outcome.fault` (log entry 17; safe: nothing is lost that the spec keeps). -/
inductive Fault where
  /-- A memory access above 4095: raised by the fetch, DRW, LD B, LD [I] and LD VX,[I] (R240, R245). Safe: the spec's own fault. -/
  | outOfBounds
  /-- CALL with 16 return addresses on the stack (R240, R125). Safe: the spec's own fault. -/
  | stackOverflow
  /-- RET with an empty stack (R240, R122). Safe: the spec's own fault. -/
  | stackUnderflow
  /-- Every UNKNOWN word and every SYS (R240, R123, R131). Safe: the spec's own fault. -/
  | unknownInstruction
  deriving DecidableEq, Repr

/-- Why the model gives no next state. -/
inductive Refusal where
  /-- An instruction of the table that has no meaning yet, by its mnemonic. Raised by no arm of exec: every instruction has its
  meaning. Safe. -/
  | notModelled (mnemonic : String)
  /-- A Preload or LoadProgram request after the first Cycle since Reset: the hardware has no port for it, and
  93_implementation_defined.md U16 says it has no move in a model (20_memory.md R76, 70 R291; log entry 24). Raised by the
  host's load requests only, never by an instruction. Safe. -/
  | hostLoadDuringRun
  deriving DecidableEq, Repr

/-- Memory as data: the bytes that are not 0, by strictly rising address (log entry 31). An address not listed reads as 0,
which is what reset leaves in every byte (10_state.md R34). The operations are in Machine/Ops.lean. -/
abbrev Memory := List Host.Cell

/-- The framebuffer as rows of pixels: `fb[y][x]`, row 0 to 31, column 0 to 63 (10_state.md R26, 43_display.md R200). -/
abbrev Framebuffer := Vector (Vector Bool Config.fbW) Config.fbH

/-- A request of the host, 70_reset_and_hazards.md R291 and R293. -/
inductive Request where
  /-- `Cycle(press)`: run one instruction, with or without a key-press report (40 R120, 44 R216). -/
  | cycle (press : Option Key)
  /-- `Tick`: one step of the Timer Driver (44 R223). -/
  | tick
  /-- `Reset` (70 R280). -/
  | reset
  /-- New key states (44 R215). -/
  | setKeys (keys : Vector Bool 16)
  /-- `Preload(addr, bytes)` (20 R77). -/
  | preload (addr : Nat) (bytes : List Byte)
  /-- `LoadProgram(bytes)` (20 R76). -/
  | loadProgram (bytes : List Byte)
  deriving DecidableEq, Repr

/-- `dbg_sel`: what the host's read port is pointed at (70_reset_and_hazards.md R293). The spec lists the eight and gives no code
for them, so they are names (log entry 37). -/
inductive DbgSel where
  /-- `V`: a general register, `dbg_addr` its index. -/
  | regs
  /-- `I`. -/
  | idx
  /-- `pc`. -/
  | pc
  /-- `sp`. -/
  | sp
  /-- `stack`: an entry, `dbg_addr` its index. -/
  | stack
  /-- `dt`. -/
  | dt
  /-- `st`. -/
  | st
  /-- `mem`: a byte, `dbg_addr` its address. -/
  | mem
  deriving DecidableEq, Repr

/-- The answer to the last request (00_scope.md R7 for a Cycle, 70 R293 for the others). -/
inductive Reply where
  /-- No request has been answered since power-on (log entry 22). -/
  | idle
  /-- The Cycle completed an instruction. -/
  | advanced
  /-- The Cycle met the key wait with no press reported, and changed nothing. -/
  | blocked
  /-- The Cycle faulted, now or before. -/
  | fault (kind : Fault)
  /-- A request other than a Cycle was served. -/
  | ok
  /-- A load out of range was turned away, with no byte written (20 R76, R77). -/
  | outOfBounds
  deriving DecidableEq, Repr

/-- The machine. `regs` to `fault` are the state of 10_state.md R32; `keys` and `press` are inputs the host owns; `reply` is an
output; `pending` and `started` are the model's own (log entries 18, 22, 24). -/
structure State where
  /-- `V[0]` to `V[15]` (R20); `V[15]` is the flag register VF (R21). -/
  regs : Vector Byte 16
  /-- The index register `I` (R22). -/
  idx : Word
  /-- The address of the instruction to fetch next (R23). -/
  pc : Word
  /-- The return addresses, oldest first; the entries at `sp` and above are stale (R24). -/
  stack : Vector Word Config.stackDepth
  /-- How many entries of the stack are valid, 0 to 16 (R24). -/
  sp : Fin (Config.stackDepth + 1)
  /-- The delay timer (R25). -/
  dt : Byte
  /-- The sound timer (R25). -/
  st : Byte
  /-- The pixels (R26). -/
  fb : Framebuffer
  /-- Main memory (R28). -/
  mem : Memory
  /-- The fault latch (R29); `none` is NONE. -/
  fault : Option Fault
  /-- The key states, an input (R27). -/
  keys : Vector Bool 16
  /-- The key-press report presented with the Cycle under way, an input (44 R216); `none` is NoPress. A Cycle request brings it and
  the Cycle's end takes it away, so between the steps of a run from reset it is `none`. -/
  press : Option Key
  /-- The host's requests still to be served, first one first (R32: the schedule is an input). -/
  pending : List Request
  /-- Whether a Cycle was requested since the last Reset (R76, R291). -/
  started : Bool
  /-- The answer to the last request (R7, R293). -/
  reply : Reply
  deriving DecidableEq, Repr

/-- What a meaning and a step answer. -/
abbrev Result := Host.Outcome State Fault Refusal

/-- The state after reset: R34's table. `keys`, `press`, `pending`, `started` and `reply` are not the core's; their values here
are DESIGN CHOICE (log entries 21, 22). -/
def State.reset : State where
  regs := Vector.replicate 16 0x00#8
  idx := 0x0000#16
  pc := BitVec.ofNat 16 Config.entry
  stack := Vector.replicate Config.stackDepth 0x0000#16
  sp := 0
  dt := 0x00#8
  st := 0x00#8
  fb := Vector.replicate Config.fbH (Vector.replicate Config.fbW false)
  mem := []
  fault := none
  keys := Vector.replicate 16 false
  press := none
  pending := []
  started := false
  reply := .idle

end Sys2Proof.Machine
end

