-- ==== Sys2Proof/Machine/Ops.lean ====
section
/-! DEFINITION. The named operations every meaning is written over: memory and its bounds check (20_memory.md), registers,
stack and framebuffer ports (10_state.md, 43_display.md), how an instruction ends (40_cycle_and_control.md R121), and taking
a fault (60_exceptions.md R242) with the only way back from one, Reset (R243). -/

namespace Sys2Proof.Machine

/-! ## Memory -/

/-- What an address that is not listed reads as: 0, the reset contents (10_state.md R34). -/
def Memory.unlisted : Byte := 0x00#8

/-- The byte at an address (20_memory.md R63, a read with no side effect). -/
def Memory.read : Memory → Nat → Byte
  | [], _ => Memory.unlisted
  | (b, v) :: m, a => if a = b then v else Memory.read m a

/-- Sets one byte and nothing else (R63), keeping the list canonical: the value an unlisted address reads as is not listed. -/
def Memory.write : Memory → Nat → Byte → Memory
  | [], a, v => if v = Memory.unlisted then [] else [(a, v)]
  | (b, u) :: m, a, v =>
    if a < b then (if v = Memory.unlisted then (b, u) :: m else (a, v) :: (b, u) :: m)
    else if a = b then (if v = Memory.unlisted then m else (a, v) :: m)
    else (b, u) :: Memory.write m a v

/-- Sets consecutive bytes from an address on, in ascending order (R65, R76). -/
def Memory.writeRun : Memory → Nat → List Byte → Memory
  | m, _, [] => m
  | m, a, v :: vs => Memory.writeRun (m.write a v) (a + 1) vs

/-- Strictly rising addresses from `low` on, all below `MEM_SIZE`, no entry equal to what an unlisted address reads as. -/
def Memory.wfFrom : Nat → Memory → Bool
  | _, [] => true
  | low, (a, v) :: m =>
    decide (low ≤ a) && decide (a < Config.memSize) && decide (v ≠ Memory.unlisted) && Memory.wfFrom (a + 1) m

/-- The canonical form of memory: equal memories are equal lists. -/
def Memory.wf (m : Memory) : Bool := Memory.wfFrom 0 m

/-- The bounds check of R62 on the run of `n` addresses from `a`: all of them are at most 4095. The addresses are unbounded
integers, never reduced (D10, log entry 10); the empty run is in range. -/
def runInRange (a n : Nat) : Bool := decide (n = 0 ∨ a + n ≤ Config.memSize)

/-! ## Registers, stack, framebuffer -/

/-- `V[x]` (R20; no register is hardwired). -/
def State.reg (s : State) (x : RegIdx) : Byte := s.regs[x.val]

/-- `V[x] <- v` (R20). -/
def State.setReg (s : State) (x : RegIdx) (v : Byte) : State := { s with regs := s.regs.set x.val v }

/-- `VF <- v`: VF is `V[15]` (R21). -/
def State.setFlag (s : State) (v : Byte) : State := s.setReg 15 v

/-- `I <- v` (R22). -/
def State.setIdx (s : State) (v : Word) : State := { s with idx := v }

/-- `dt <- v` (R25). -/
def State.setDt (s : State) (v : Byte) : State := { s with dt := v }

/-- `st <- v` (R25). -/
def State.setSt (s : State) (v : Byte) : State := { s with st := v }

/-- Main memory replaced by the memory after an instruction's writes. -/
def State.setMem (s : State) (m : Memory) : State := { s with mem := m }

/-- All sixteen registers replaced by the registers after an instruction's loads. -/
def State.setRegs (s : State) (regs : Vector Byte 16) : State := { s with regs := regs }

/-- `pc <- v` (R23). -/
def State.setPc (s : State) (v : Word) : State := { s with pc := v }

/-- The fault latch takes a value (R29). -/
def State.setFault (s : State) (f : Option Fault) : State := { s with fault := f }

/-- The answer to the request (00_scope.md R7). -/
def State.setReply (s : State) (r : Reply) : State := { s with reply := r }

/-- The key states become what the host says (44_keypad_timers.md R215). -/
def State.setKeys (s : State) (keys : Vector Bool 16) : State := { s with keys := keys }

/-- The report the host presents with a Cycle (R216). -/
def State.setPress (s : State) (press : Option Key) : State := { s with press := press }

/-- The framebuffer replaced by the framebuffer after an instruction's port operations. -/
def State.setFb (s : State) (fb : Framebuffer) : State := { s with fb := fb }

/-- A push: writes `stack[sp]`, then adds 1 to `sp` (R24). -/
def State.push (s : State) (v : Word) (h : s.sp.val < Config.stackDepth) : State :=
  { s with stack := s.stack.set s.sp.val v, sp := ⟨s.sp.val + 1, Nat.succ_lt_succ h⟩ }

/-- The newest entry, `stack[sp - 1]` (R24). Only read when `sp` is not 0. -/
def State.top (s : State) : Word := s.stack[s.sp.val - 1]'(by have := s.sp.isLt; simp only [Config.stackDepth] at *; omega)

/-- A pop: subtracts 1 from `sp`; the entry stays as a stale value (R24). -/
def State.pop (s : State) : State := { s with sp := ⟨s.sp.val - 1, Nat.lt_of_le_of_lt (Nat.sub_le _ _) s.sp.isLt⟩ }

/-- The pixel `fb[y][x]` (R26). -/
def Framebuffer.pixel (fb : Framebuffer) (x : Fin Config.fbW) (y : Fin Config.fbH) : Bool := fb[y.val][x.val]

/-- `FbClear()`: every pixel 0 (43_display.md R201). -/
def Framebuffer.cleared : Framebuffer := Vector.replicate Config.fbH (Vector.replicate Config.fbW false)

/-- The write half of `FbXor(x, y)`: the pixel inverted, every other pixel kept (R201). -/
def Framebuffer.toggle (fb : Framebuffer) (x : Fin Config.fbW) (y : Fin Config.fbH) : Framebuffer :=
  fb.set y.val (fb[y.val].set x.val (!(fb.pixel x y)))

/-! ## How an instruction ends -/

/-- The instruction is complete and `pc` takes its next value (00_scope.md R7, `Advanced`). -/
def completeAt (target : Word) (s : State) : Result := .next ((s.setPc target).setReply .advanced)

/-- Sequential advance: `pc <- (pc + 2) mod 2^16` (R121). -/
def advance (s : State) : Result := completeAt (s.pc + 2) s

/-- A skip instruction's end: `pc + 4` when the condition holds, `pc + 2` when not (R121). -/
def skipIf (c : Bool) (s : State) : Result := completeAt (if c then s.pc + 4 else s.pc + 2) s

/-- The order of the two writes of a flag-producing instruction (41_alu.md R150): the flag first, the result second, so that
with `x = 15` the result stays (D7, log entry 7); then the sequential advance. -/
def flagThenResult (x : RegIdx) (flag result : Byte) (s : State) : Result := advance ((s.setFlag flag).setReg x result)

/-- Blocked: no state change at all; the host is told so (44 R219, 00_scope.md R7). -/
def block (s : State) : Result := .next (s.setReply .blocked)

/-- Fault entry, `raise F` (60_exceptions.md R242): the latch takes the kind, the Cycle answers `Fault(F)`, and nothing else
changes (R241): no pc is saved, no mode changes, control goes nowhere. The machine goes on to a next state (log entry 17). -/
def raise (f : Fault) (s : State) : Result := .next ((s.setFault (some f)).setReply (.fault f))

/-- An instruction that accesses the run of `n` bytes at `a`: the whole run is checked before its first write of any kind
(R62), else OutOfBounds with nothing changed (R241). -/
def withRun (a n : Nat) (s : State) (body : State → Result) : Result :=
  if runInRange a n then body s else raise .outOfBounds s

/-- Reset (70_reset_and_hazards.md R280): every piece of the core's state takes its reset value, whatever it was; the only way
out of a fault (R243). The inputs the host owns are not the core's to reset (R34) and stay (log entry 23). -/
def State.resetCore (s : State) : State :=
  { State.reset with keys := s.keys, press := s.press, pending := s.pending }

end Sys2Proof.Machine
end

