-- ==== Sys2Proof/Machine/Flags.lean ====
section
/-! DEFINITION. The value each flag-producing instruction writes to VF, 0 or 1 (10_state.md R21). The operands are the
registers before the Cycle (41_alu.md R150). -/

namespace Sys2Proof.Machine

/-- A flag as the byte VF takes: 0x01 or 0x00 (R21). -/
def flagByte (b : Bool) : Byte := if b then 0x01#8 else 0x00#8

/-- ADD VX, VY: the unsigned sum overflows 8 bits (41_alu.md R157). -/
def carryFlag (a b : Byte) : Byte := flagByte (decide (a.toNat + b.toNat > 255))

/-- SUB and SUBN: no borrow, minuend at least subtrahend (R158, R160). -/
def noBorrowFlag (minuend subtrahend : Byte) : Byte := flagByte (decide (minuend.toNat ≥ subtrahend.toNat))

/-- SHR: bit 0 before the shift (R159). -/
def lowBitFlag (a : Byte) : Byte := flagByte (a.getLsbD 0)

/-- SHL: bit 7 before the shift (R161). -/
def highBitFlag (a : Byte) : Byte := flagByte (a.getLsbD 7)

/-- DRW: at least one pixel went from 1 to 0 (43_display.md R203). -/
def collisionFlag (hit : Bool) : Byte := flagByte hit

end Sys2Proof.Machine
end

