-- ==== Sys2Proof/Machine/Alu.lean ====
section
/-! DEFINITION. Register load, arithmetic, logic and shifts: 41_alu.md R150 to R162. All operands are read from the state
before the Cycle; results wrap modulo 2^8. -/

namespace Sys2Proof.Machine

/-- `6XNN` (R151). -/
def execLdImm (x : RegIdx) (nn : Byte) (s : State) : Result := advance (s.setReg x nn)

/-- `7XNN` (R152): no flag (D8, log entry 8). -/
def execAddImm (x : RegIdx) (nn : Byte) (s : State) : Result := advance (s.setReg x (s.reg x + nn))

/-- `8XY0` (R153). -/
def execLdReg (x y : RegIdx) (s : State) : Result := advance (s.setReg x (s.reg y))

/-- `8XY1` (R154): no flag (D8, log entry 8). -/
def execOr (x y : RegIdx) (s : State) : Result := advance (s.setReg x (s.reg x ||| s.reg y))

/-- `8XY2` (R155): no flag (D8, log entry 8). -/
def execAnd (x y : RegIdx) (s : State) : Result := advance (s.setReg x (s.reg x &&& s.reg y))

/-- `8XY3` (R156): no flag (D8, log entry 8). -/
def execXor (x y : RegIdx) (s : State) : Result := advance (s.setReg x (s.reg x ^^^ s.reg y))

/-- `8XY4` (R157): VF = carry out; no carry in. -/
def execAddReg (x y : RegIdx) (s : State) : Result :=
  flagThenResult x (carryFlag (s.reg x) (s.reg y)) (s.reg x + s.reg y) s

/-- `8XY5` (R158): VX - VY, VF = no borrow; no borrow in. -/
def execSub (x y : RegIdx) (s : State) : Result :=
  flagThenResult x (noBorrowFlag (s.reg x) (s.reg y)) (s.reg x - s.reg y) s

/-- `8XY6` (R159): VX shifted right by one, VF = the bit shifted out. VY is not used. -/
def execShr (x _y : RegIdx) (s : State) : Result :=
  flagThenResult x (lowBitFlag (s.reg x)) (s.reg x >>> 1) s

/-- `8XY7` (R160): VY - VX, VF = no borrow. -/
def execSubn (x y : RegIdx) (s : State) : Result :=
  flagThenResult x (noBorrowFlag (s.reg y) (s.reg x)) (s.reg y - s.reg x) s

/-- `8XYE` (R161): VX shifted left by one, VF = the bit shifted out. VY is not used. -/
def execShl (x _y : RegIdx) (s : State) : Result :=
  flagThenResult x (highBitFlag (s.reg x)) (s.reg x <<< 1) s

end Sys2Proof.Machine
end

