-- ==== Sys2Proof/Machine/Operands.lean ====
section
/-! DEFINITION. The operand forms: what an instruction's fields and registers stand for (30_encoding.md R91, R93;
42_index_memory.md, "effective address"; R182, R183; 43_display.md R203). Register operands are `State.reg`. -/

namespace Sys2Proof.Machine

/-- `zext_16(NNN)`: an address operand, 0x0000 to 0x0FFF (R93). -/
def addr16 (nnn : Addr12) : Word := nnn.setWidth 16

/-- `v[3:0]`: the digit of LD F and the key index of SKP and SKNP (R182, R217; D14, D15: log entries 14, 15). -/
def lowNibble (v : Byte) : Fin 16 := (v.extractLsb' 0 4).toFin

/-- The effective address `I + k`, an unbounded integer (R62; D10, log entry 10). -/
def effAddr (s : State) (k : Nat) : Nat := s.idx.toNat + k

/-- The address of a digit's glyph, `FONT_BASE + FONT_STRIDE * d` (R182; D14, log entry 14). -/
def fontAddr (d : Fin 16) : Word := BitVec.ofNat 16 (Config.fontBase + Config.fontStride * d.val)

/-- The three decimal digits of a byte: hundreds, tens, units (R183). -/
def bcdDigits (v : Byte) : List Byte :=
  [BitVec.ofNat 8 (v.toNat / 100), BitVec.ofNat 8 (v.toNat / 10 % 10), BitVec.ofNat 8 (v.toNat % 10)]

/-- `V[0]` to `V[x]`, the registers a dump stores, in ascending order (R184). -/
def regsUpTo (s : State) (x : RegIdx) : List Byte := s.regs.toList.take (x.val + 1)

/-- The pixel of a sprite row at column `col`: bit `7 - col`, so bit 7 is the leftmost (R203; D13, log entry 13). -/
def spriteBit (row : Byte) (col : Nat) : Bool := row.getLsbD (7 - col)

/-- A pixel's column: `(VX + col) mod 64`, wrapped (R203; D12, log entry 12). -/
def pixelX (x0 : Byte) (col : Nat) : Fin Config.fbW := ⟨(x0.toNat + col) % Config.fbW, Nat.mod_lt _ (by decide)⟩

/-- A pixel's row: `(VY + row) mod 32`, wrapped (R203; D12, log entry 12). -/
def pixelY (y0 : Byte) (row : Nat) : Fin Config.fbH := ⟨(y0.toNat + row) % Config.fbH, Nat.mod_lt _ (by decide)⟩

end Sys2Proof.Machine
end

