-- ==== Sys2Proof/Machine/Control.lean ====
section
/-! DEFINITION. The control-transfer instructions and UNKNOWN: 40_cycle_and_control.md R122 to R131. In every meaning `s.pc`
is the address of the instruction being executed (10_state.md R23). -/

namespace Sys2Proof.Machine

/-- `00EE` (R122): the popped entry is the next `pc`; StackUnderflow on an empty stack. -/
def execRet (s : State) : Result :=
  if s.sp.val = 0 then raise .stackUnderflow s else completeAt s.top s.pop

/-- `0NNN` (R123; the spec's decision D5, log entry 5): always UnknownInstruction. -/
def execSys (_nnn : Addr12) (s : State) : Result := raise .unknownInstruction s

/-- `1NNN` (R124). -/
def execJp (nnn : Addr12) (s : State) : Result := completeAt (addr16 nnn) s

/-- `2NNN` (R125): pushes the address after the CALL; StackOverflow on a full stack. -/
def execCall (nnn : Addr12) (s : State) : Result :=
  if h : s.sp.val < Config.stackDepth then completeAt (addr16 nnn) (s.push (s.pc + 2) h)
  else raise .stackOverflow s

/-- `3XNN` (R126). -/
def execSeImm (x : RegIdx) (nn : Byte) (s : State) : Result := skipIf (s.reg x == nn) s

/-- `4XNN` (R127). -/
def execSneImm (x : RegIdx) (nn : Byte) (s : State) : Result := skipIf (s.reg x != nn) s

/-- `5XYn` (R128). -/
def execSeReg (x y : RegIdx) (s : State) : Result := skipIf (s.reg x == s.reg y) s

/-- `9XYn` (R129). -/
def execSneReg (x y : RegIdx) (s : State) : Result := skipIf (s.reg x != s.reg y) s

/-- `BNNN` (R130): the sum is not cut to 12 bits (D26, log entry 27). -/
def execJpV0 (nnn : Addr12) (s : State) : Result := completeAt (addr16 nnn + (s.reg 0).setWidth 16) s

/-- A word with no defined case (R131): UnknownInstruction; the word is recorded nowhere. -/
def execUnknown (_w : Word) (s : State) : Result := raise .unknownInstruction s

end Sys2Proof.Machine
end

