-- ==== Sys2Proof/Machine/Display.lean ====
section
/-! DEFINITION. The display instructions: 43_display.md R200 to R204. -/

namespace Sys2Proof.Machine

/-- `00E0` (R202): one FbClear; VF is not written (D8, log entry 8). -/
def execCls (s : State) : Result := advance (s.setFb Framebuffer.cleared)

/-- A draw under way: the framebuffer so far and whether a pixel has gone from 1 to 0. -/
structure Canvas where
  fb : Framebuffer
  hit : Bool
  deriving DecidableEq, Repr

/-- `FbXor(x, y)` (R201): the pixel is inverted, and its old value 1 is a collision (R203). -/
def Canvas.plot (c : Canvas) (x : Fin Config.fbW) (y : Fin Config.fbH) : Canvas :=
  { fb := c.fb.toggle x y, hit := c.hit || c.fb.pixel x y }

/-- The first `n` columns of one sprite row: a set bit plots its pixel, a clear bit does nothing (R203). -/
def drawCols (x0 : Byte) (y : Fin Config.fbH) (row : Byte) : Nat → Canvas → Canvas
  | 0, c => c
  | col + 1, c =>
    let c := drawCols x0 y row col c
    if spriteBit row col then c.plot (pixelX x0 col) y else c

/-- The first `n` rows of a sprite whose rows are the bytes at `a`, `a + 1`, … (R203). -/
def drawRows (m : Memory) (a : Nat) (x0 y0 : Byte) : Nat → Canvas → Canvas
  | 0, c => c
  | row + 1, c => drawCols x0 (pixelY y0 row) (m.read (a + row)) 8 (drawRows m a x0 y0 row c)

/-- The whole of DRW's drawing, from the state before the Cycle (R203: coordinates sampled before any write). -/
def drawSprite (s : State) (x y : RegIdx) (n : Nat) : Canvas :=
  drawRows s.mem (effAddr s 0) (s.reg x) (s.reg y) n { fb := s.fb, hit := false }

/-- `DXYN` (R203): `N` sprite rows from memory at `I`; VF = collision, written also when `N = 0`. -/
def execDrw (x y : RegIdx) (n : Fin 16) (s : State) : Result :=
  withRun (effAddr s 0) n.val s fun s =>
    advance ((s.setFb (drawSprite s x y n.val).fb).setFlag (collisionFlag (drawSprite s x y n.val).hit))

end Sys2Proof.Machine
end

