-- ==== Sys2Proof/Machine/Index.lean ====
section
/-! DEFINITION. The index-register and memory instructions: 42_index_memory.md R180 to R185. No memory access changes `I`. -/

namespace Sys2Proof.Machine

/-- `ANNN` (R180). -/
def execLdI (nnn : Addr12) (s : State) : Result := advance (s.setIdx (addr16 nnn))

/-- `FX1E` (R181): modulo 2^16, no flag (D9, D8: log entries 9, 8). -/
def execAddI (x : RegIdx) (s : State) : Result := advance (s.setIdx (s.idx + (s.reg x).setWidth 16))

/-- `FX29` (R182): computes an address, reads no memory (D14, log entry 14). -/
def execLdF (x : RegIdx) (s : State) : Result := advance (s.setIdx (fontAddr (lowNibble (s.reg x))))

/-- `FX33` (R183): three decimal digits at `I`, `I+1`, `I+2`. -/
def execLdB (x : RegIdx) (s : State) : Result :=
  withRun (effAddr s 0) 3 s fun s => advance (s.setMem (s.mem.writeRun (effAddr s 0) (bcdDigits (s.reg x))))

/-- `FX55` (R184): `V[k]` to `I + k`, for `k` from 0 to `X`. -/
def execStRegs (x : RegIdx) (s : State) : Result :=
  withRun (effAddr s 0) (x.val + 1) s fun s => advance (s.setMem (s.mem.writeRun (effAddr s 0) (regsUpTo s x)))

/-- The registers after the first `n` loads of R185: `V[k]` from address `a + k`, for `k` from 0 to `n - 1`. -/
def loadRegs (m : Memory) (a : Nat) : Nat → Vector Byte 16 → Vector Byte 16
  | 0, regs => regs
  | k + 1, regs => (loadRegs m a k regs).setIfInBounds k (m.read (a + k))

/-- `FX65` (R185): `V[k]` from `I + k`, for `k` from 0 to `X`. -/
def execLdRegs (x : RegIdx) (s : State) : Result :=
  withRun (effAddr s 0) (x.val + 1) s fun s =>
    advance (s.setRegs (loadRegs s.mem (effAddr s 0) (x.val + 1) s.regs))

end Sys2Proof.Machine
end

