-- ==== Sys2Proof/Machine/Keypad.lean ====
section
/-! DEFINITION. The keypad instructions: 44_keypad_timers.md R215 to R219. -/

namespace Sys2Proof.Machine

/-- Whether the key that `V[x]` names is down: the key whose index is the low four bits (R217; D15, log entry 15). -/
def keyDown (s : State) (x : RegIdx) : Bool := s.keys[(lowNibble (s.reg x)).val]

/-- `EX9E` (R217). -/
def execSkp (x : RegIdx) (s : State) : Result := skipIf (keyDown s x) s

/-- `EXA1` (R218). -/
def execSknp (x : RegIdx) (s : State) : Result := skipIf (!(keyDown s x)) s

/-- `FX0A` (R219): a reported press completes it; with no press the Cycle is Blocked and changes nothing. It does not read
`keys` (R27). -/
def execLdVxK (x : RegIdx) (s : State) : Result :=
  match s.press with
  | none => block s
  | some k => advance (s.setReg x (BitVec.ofNat 8 k.val))

end Sys2Proof.Machine
end

