-- ==== Sys2Proof/Machine/Timers.lean ====
section
/-! DEFINITION. The timer instructions and the Timer Driver: 44_keypad_timers.md R220 to R224. -/

namespace Sys2Proof.Machine

/-- `FX07` (R220). -/
def execLdVxDt (x : RegIdx) (s : State) : Result := advance (s.setReg x s.dt)

/-- `FX15` (R221). -/
def execLdDtVx (x : RegIdx) (s : State) : Result := advance (s.setDt (s.reg x))

/-- `FX18` (R222). -/
def execLdStVx (x : RegIdx) (s : State) : Result := advance (s.setSt (s.reg x))

/-- One timer's countdown: 1 less if it is not 0, never below 0 (R223). -/
def countDown (v : Byte) : Byte := if v = 0x00#8 then 0x00#8 else v - 1

/-- `Tick` (R223): each timer on its own; nothing else is read or written, whatever the fault latch holds. -/
def State.tick (s : State) : State := (s.setDt (countDown s.dt)).setSt (countDown s.st)

/-- The output `sound_active` (R224). -/
def soundActive (s : State) : Bool := s.st != 0x00#8

end Sys2Proof.Machine
end

