-- ==== Sys2Proof/Machine/Requests.lean ====
section
/-! DEFINITION. The requests of the host and how each is served: the Cycle (40_cycle_and_control.md R120) with its fetch
(20_memory.md R64), Tick, Reset, the key states, the loads (R76, R77); and the host's read ports (R78, 43_display.md R201,
70_reset_and_hazards.md R293). -/

namespace Sys2Proof.Machine

/-! ## The Cycle -/

/-- The word at an address, the byte at the lower address in the high half (R64; D1, log entry 1). -/
def wordAt (m : Memory) (a : Nat) : Word := wordOfBytes (m.read a) (m.read (a + 1))

/-- Fetch (R64): both bytes are checked before either is used; `none` is OutOfBounds. `pc + 1` is an unbounded integer. -/
def fetch (s : State) : Option Word :=
  if runInRange s.pc.toNat Config.instrBytes then some (wordAt s.mem s.pc.toNat) else none

/-- The body of a Cycle (R120, R244): a halted core reports its fault again and changes nothing (R243); then the fetch, the
decoder, the instruction. -/
def runCycle (s : State) : Result :=
  match s.fault with
  | some f => .next (s.setReply (.fault f))
  | none =>
    match fetch s with
    | none => raise .outOfBounds s
    | some w => exec (decodeWord w) s

/-- What the host's side keeps of a Cycle: the press report is spent, used or not (R216), and loads are over (R76). -/
def State.endCycle (s : State) : State := { s with press := none, started := true }

/-- Applies a function to the next state of an outcome, if there is one. -/
def mapNext (f : State → State) : Result → Result
  | .next s => .next (f s)
  | .fault r => .fault r
  | .refused r => .refused r

/-- `Cycle(press)` (R120). -/
def cycle (press : Option Key) (s : State) : Result := mapNext State.endCycle (runCycle (s.setPress press))

/-! ## The host's other requests -/

/-- A request other than a Cycle that was served. -/
def answer (r : Reply) (s : State) : Result := .next (s.setReply r)

/-- `Preload(addr, bytes)` (R77): all or nothing; out of range it is turned away to the host, the core's latch untouched
(60_exceptions.md R245). Only between Reset and the first Cycle; at another time it has no move (U16, log entry 24). -/
def preload (addr : Nat) (bytes : List Byte) (s : State) : Result :=
  if s.started then .refused .hostLoadDuringRun
  else if runInRange addr bytes.length then answer .ok (s.setMem (s.mem.writeRun addr bytes))
  else answer .outOfBounds s

/-- `LoadProgram(bytes)` (R76): the same at ENTRY. -/
def loadProgram (bytes : List Byte) (s : State) : Result := preload Config.entry bytes s

/-- One request served (70 R290: one at a time, each atomic). -/
def serve (r : Request) (s : State) : Result :=
  match r with
  | .cycle press => cycle press s
  | .tick => answer .ok s.tick
  | .reset => answer .ok s.resetCore
  | .setKeys keys => answer .ok (s.setKeys keys)
  | .preload addr bytes => preload addr bytes s
  | .loadProgram bytes => loadProgram bytes s

/-- The request a step serves: the first one pending, if there is one. -/
def State.nextRequest (s : State) : Option Request := s.pending.head?

/-- The state with that request taken off the list. -/
def State.dropRequest (s : State) : State := { s with pending := s.pending.tail }

/-- What the machine does next: it serves the host's next request; a host that asks for nothing leaves the state as it is
(60_exceptions.md R252; log entry 19). -/
def serveNext (s : State) : Result :=
  match s.nextRequest with
  | none => .next s
  | some r => serve r s.dropRequest

/-! ## The host's read ports: they change nothing -/

/-- The fault codes of 60_exceptions.md R240. -/
def Fault.code : Fault → BitVec 3
  | .outOfBounds => 1#3
  | .stackOverflow => 2#3
  | .stackUnderflow => 3#3
  | .unknownInstruction => 4#3

/-- The output `fault_kind`: the latch, 0 for NONE (R240, R293). -/
def faultKind (s : State) : BitVec 3 :=
  match s.fault with
  | none => 0#3
  | some f => f.code

/-- A host read of a byte of memory: out of range it is refused to the host, and the latch is not touched (R78). -/
def hostReadMem (s : State) (addr : Nat) : Except Fault Byte :=
  if runInRange addr 1 then .ok (s.mem.read addr) else .error .outOfBounds

/-- A value of at most 16 bits as `dbg_data` shows it: zero-extended (log entry 37). -/
def dbgZext (n : Nat) : BitVec 16 := BitVec.ofNat 16 n

/-- `dbg_data`, the host's 16-bit read port of `V`, `I`, `pc`, `sp`, `stack`, `dt`, `st` and `mem` (R293; 20_memory.md R78). The
address selects a register, a stack entry or a byte, and one out of range is refused to the host with OutOfBounds, the latch not
touched; the single registers do not look at it (log entry 37). -/
def hostRead (sel : DbgSel) (addr : Nat) (s : State) : Except Fault (BitVec 16) :=
  match sel with
  | .regs => if h : addr < 16 then .ok (dbgZext (s.reg ⟨addr, h⟩).toNat) else .error .outOfBounds
  | .idx => .ok s.idx
  | .pc => .ok s.pc
  | .sp => .ok (dbgZext s.sp.val)
  | .stack => if h : addr < Config.stackDepth then .ok s.stack[addr] else .error .outOfBounds
  | .dt => .ok (dbgZext s.dt.toNat)
  | .st => .ok (dbgZext s.st.toNat)
  | .mem => (hostReadMem s addr).map fun b => dbgZext b.toNat

/-- The host's read port of the framebuffer (43_display.md R201). -/
def hostReadPixel (s : State) (x : Fin Config.fbW) (y : Fin Config.fbH) : Bool := s.fb.pixel x y

/-! ## Placing one instruction for the next step -/

/-- Whether an instruction can be fetched at `pc` (R64). -/
def State.fetchable (s : State) : Bool := runInRange s.pc.toNat Config.instrBytes

/-- The `pc` at which a word can be placed: where it stands if a fetch there is in range, else ENTRY. -/
def State.placeAt (s : State) : Word := if s.fetchable then s.pc else BitVec.ofNat 16 Config.entry

/-- The pending list with a Cycle first: as it stands if it starts with one, else with a Cycle put before it. -/
def State.cycleFirst (s : State) : List Request :=
  match s.nextRequest with
  | some (.cycle _) => s.pending
  | none | some .tick | some .reset | some (.setKeys _) | some (.preload _ _) | some (.loadProgram _) =>
    .cycle s.press :: s.pending

/-- The state with a word stored where the next step fetches, and that step a Cycle of a core that is not halted. -/
def State.placeWord (s : State) (w : Word) : State :=
  { s with
    mem := s.mem.writeRun s.placeAt.toNat [firstByte w, secondByte w]
    pc := s.placeAt
    fault := none
    pending := s.cycleFirst }

end Sys2Proof.Machine
end

