-- ==== Sys2Proof/Machine/Step.lean ====
section
/-! DEFINITION. One step of the machine: the host's next request, if there is one, served (00_scope.md R6;
70_reset_and_hazards.md R290, R292; 60_exceptions.md R252). -/

namespace Sys2Proof.Machine

/-- One atomic step of one agent, in the order the host chose, or nothing if the host asks for nothing (log entries 18, 19). -/
def step (s : State) : Host.Outcome State Fault Refusal := serveNext s

/-- `s` with the table word `w` placed where the next step fetches its instruction, and with all that this fetch needs: a `pc` in
range, no latched fault, a Cycle as the next request (log entry 29). -/
def State.withFetchWord (s : State) (nbits w : Nat) : State := s.placeWord (tableWord nbits w)

end Sys2Proof.Machine
end

