-- ==== Sys2Proof/Safety.lean ====
section
/-! DEFINITION. The terms claims are stated in: what a step may change (10_state.md R31), which fault an instruction raises
(60_exceptions.md R245), where `pc` goes (10_state.md R23), the states the spec gives names to (running, blocked on a key, end
of a run), and the invariant of the machine. -/

namespace Sys2Proof.Machine

/-! ## Frames -/

/-- What may change between two states besides `pc` and `reply`: by default nothing. -/
structure MayChange where
  reg : RegIdx → Prop := fun _ => False
  idx : Prop := False
  stack : Prop := False
  dt : Prop := False
  st : Prop := False
  fb : Prop := False
  byte : Nat → Prop := fun _ => False
  fault : Prop := False

/-- Everything that may not change is the same in `t` as in `s`: each register, `I`, the stack with its depth, the timers, the
framebuffer, EVERY byte of memory as a read sees it, the fault latch, and the host's inputs. `pc` and `reply` are not spoken
of. -/
structure Keeps (c : MayChange) (s t : State) : Prop where
  reg : ∀ r, ¬ c.reg r → t.reg r = s.reg r
  idx : ¬ c.idx → t.idx = s.idx
  sp : ¬ c.stack → t.sp = s.sp
  stack : ¬ c.stack → t.stack = s.stack
  dt : ¬ c.dt → t.dt = s.dt
  st : ¬ c.st → t.st = s.st
  fb : ¬ c.fb → t.fb = s.fb
  byte : ∀ a, ¬ c.byte a → t.mem.read a = s.mem.read a
  fault : ¬ c.fault → t.fault = s.fault
  keys : t.keys = s.keys
  press : t.press = s.press
  pending : t.pending = s.pending
  started : t.started = s.started

/-- The write half of 10_state.md R31: what the Cycle of an instruction may write, the fault latch included for the
instructions of 60_exceptions.md R245. VF stands in the row of every flag-producing instruction (R21). -/
def writesOf (i : Instr) (s : State) : MayChange :=
  match i with
  | .cls => { fb := True }
  | .ret => { stack := True, fault := True }
  | .sys _ => { fault := True }
  | .jp _ => {}
  | .call _ => { stack := True, fault := True }
  | .seImm _ _ | .sneImm _ _ | .seReg _ _ | .sneReg _ _ => {}
  | .ldImm x _ | .addImm x _ | .ldReg x _ | .or x _ | .and x _ | .xor x _ => { reg := fun r => r = x }
  | .addReg x _ | .sub x _ | .shr x _ | .subn x _ | .shl x _ => { reg := fun r => r = x ∨ r = 15 }
  | .ldI _ | .addI _ | .ldF _ => { idx := True }
  | .jpV0 _ => {}
  | .drw _ _ _ => { reg := fun r => r = 15, fb := True, fault := True }
  | .skp _ | .sknp _ => {}
  | .ldVxDt x | .ldVxK x => { reg := fun r => r = x }
  | .ldDtVx _ => { dt := True }
  | .ldStVx _ => { st := True }
  | .ldB _ => { byte := fun a => effAddr s 0 ≤ a ∧ a < effAddr s 3, fault := True }
  | .stRegs x => { byte := fun a => effAddr s 0 ≤ a ∧ a < effAddr s (x.val + 1), fault := True }
  | .ldRegs x => { reg := fun r => r ≤ x, fault := True }
  | .unknown _ => { fault := True }

/-! ## Faults and the next pc -/

/-- Which instruction raises what, from 60_exceptions.md R240 and R245; the fetch is not an instruction's own. -/
def faultCause (i : Instr) (s : State) : Option Fault :=
  match i with
  | .ret => if s.sp.val = 0 then some .stackUnderflow else none
  | .call _ => if s.sp.val = 16 then some .stackOverflow else none
  | .sys _ | .unknown _ => some .unknownInstruction
  | .drw _ _ n => if 0 < n.val ∧ 4095 < s.idx.toNat + n.val - 1 then some .outOfBounds else none
  | .ldB _ => if 4095 < s.idx.toNat + 2 then some .outOfBounds else none
  | .stRegs x | .ldRegs x => if 4095 < s.idx.toNat + x.val then some .outOfBounds else none
  | .cls | .jp _ | .seImm _ _ | .sneImm _ _ | .seReg _ _ | .sneReg _ _ | .ldImm _ _ | .addImm _ _ | .ldReg _ _ => none
  | .or _ _ | .and _ _ | .xor _ _ | .addReg _ _ | .sub _ _ | .shr _ _ | .subn _ _ | .shl _ _ | .ldI _ | .jpV0 _ => none
  | .skp _ | .sknp _ | .ldVxDt _ | .ldVxK _ | .ldDtVx _ | .ldStVx _ | .addI _ | .ldF _ => none

/-- `pc` after a Cycle that advanced (10_state.md R23): `pc + 4` for a skip whose condition holds, the target for JP, CALL, JP V0
and RET, and `pc + 2` for everything else. -/
def nextPc (i : Instr) (s : State) : Word :=
  match i with
  | .jp nnn | .call nnn => nnn.setWidth 16
  | .jpV0 nnn => BitVec.ofNat 16 (nnn.toNat + (s.reg 0).toNat)
  | .ret => s.top
  | .seImm x nn => if s.reg x = nn then s.pc + 4 else s.pc + 2
  | .sneImm x nn => if s.reg x = nn then s.pc + 2 else s.pc + 4
  | .seReg x y => if s.reg x = s.reg y then s.pc + 4 else s.pc + 2
  | .sneReg x y => if s.reg x = s.reg y then s.pc + 2 else s.pc + 4
  | .skp x => if keyDown s x = true then s.pc + 4 else s.pc + 2
  | .sknp x => if keyDown s x = true then s.pc + 2 else s.pc + 4
  | .cls | .sys _ | .ldImm _ _ | .addImm _ _ | .ldReg _ _ | .or _ _ | .and _ _ | .xor _ _ | .addReg _ _ => s.pc + 2
  | .sub _ _ | .shr _ _ | .subn _ _ | .shl _ _ | .ldI _ | .drw _ _ _ | .ldVxDt _ | .ldVxK _ | .ldDtVx _ => s.pc + 2
  | .ldStVx _ | .addI _ | .ldF _ | .ldB _ | .stRegs _ | .ldRegs _ | .unknown _ => s.pc + 2

/-! ## Named states -/

/-- Not halted by a fault (60_exceptions.md R243). -/
def Running (s : State) : Prop := s.fault = none

/-- Blocked on a key (10_state.md R33): not halted, and the word at `pc` can be fetched and is a key wait. -/
def BlockedOnKey (s : State) : Prop := s.fault = none ∧ ∃ w x, fetch s = some w ∧ decodeWord w = .ldVxK x

/-- The end of a run (60_exceptions.md R253; the spec's convention D29, log entry 33): not halted, and the word at `pc` is a jump
to `pc` itself. -/
def EndOfRun (s : State) : Prop := s.fault = none ∧ ∃ w nnn, fetch s = some w ∧ decodeWord w = .jp nnn ∧ nnn.setWidth 16 = s.pc

/-- `k` steps, stopping where the machine answers no next state. -/
def stepN : Nat → State → Result
  | 0, s => .next s
  | k + 1, s =>
    match step s with
    | .next t => stepN k t
    | .fault r => .fault r
    | .refused r => .refused r

/-- A safe run of `k` steps: the machine answers a next state that no fault has halted (R243: a claim about a program takes
"fault = NONE at the end" as part of what it states). A run has as many Cycles as `pending` asks for (R252), so a claim about a
program says what is pending. -/
def SafeRun (k : Nat) (s : State) : Prop := ∃ t, stepN k s = .next t ∧ Running t

/-- The next fetch reads `v` at the address `a`, wherever `a` is one of the two bytes it reads (20_memory.md R64, R74). -/
def NextFetchReads (t : State) (a : Nat) (v : Byte) : Prop :=
  ∃ w, fetch t = some w ∧ (a = t.pc.toNat → firstByte w = v) ∧ (a = t.pc.toNat + 1 → secondByte w = v)

/-! ## The invariant -/

/-- What every step keeps: memory is in its canonical form; `pc` is at most 0x10FE, and every valid return address at most
4096 (the bounds of 10_state.md R23). That the depth is at most 16 is in the type of `sp` (R24). -/
structure Inv (s : State) : Prop where
  mem : s.mem.wf = true
  pc : s.pc.toNat ≤ 0x10FE
  stack : ∀ k : Fin 16, k.val < s.sp.val → s.stack[k.val].toNat ≤ 4096

/-! ## The sprite's pixels -/

/-- Pixel (`px`, `py`) lies under a set bit of DRW's sprite: some row `row < n` and column `col < 8` of it fall there, each
coordinate reduced on its own, and bit `7 - col` of that row's byte is 1 (43_display.md R203). -/
def UnderSprite (s : State) (x y : RegIdx) (n : Nat) (px : Fin 64) (py : Fin 32) : Prop :=
  ∃ row col, row < n ∧ col < 8 ∧ px.val = ((s.reg x).toNat + col) % 64 ∧ py.val = ((s.reg y).toNat + row) % 32 ∧
    (s.mem.read (s.idx.toNat + row)).getLsbD (7 - col) = true

end Sys2Proof.Machine
end

