-- ==== Sys2Proof/Certificates/Slice0/Obligations.lean ====
section
/-! DEFINITION. The statements for the provers, from the numbered rules of spec/. Frames are `Keeps` (Sys2Proof/Safety.lean):
everything it does not exempt is unchanged, every byte of memory included. A clause that rests on a decision the spec marks as
its own, or on a log entry, says so in the docstring. -/

open Sys2Proof Sys2Proof.Machine

/-! ## Encoding -/

/-- The words of the source's own examples S2 to S9 (95_test_vectors.md part 1) decode to the instructions they stand for. That 8124
is ADD and 8125 is SUB is the spec's decision D2 (log entry 2): the source's S9 says only that the three words of group 8 differ. -/
def Obligations.SourceWordsDecode : Prop :=
  decodeWord 0x00E0#16 = .cls ∧ decodeWord 0x00EE#16 = .ret ∧ decodeWord 0x1ABC#16 = .jp 0xABC#12 ∧
  decodeWord 0x2ABC#16 = .call 0xABC#12 ∧ decodeWord 0xAABC#16 = .ldI 0xABC#12 ∧
  decodeWord 0x3199#16 = .seImm 1 0x99#8 ∧ decodeWord 0x5120#16 = .seReg 1 2 ∧
  decodeWord 0x8120#16 = .ldReg 1 2 ∧ decodeWord 0x8124#16 = .addReg 1 2 ∧ decodeWord 0x8125#16 = .sub 1 2

/-- Decode after encode is the identity on well-formed instructions, every operand at every value, on bytes and whatever
follows them (30_encoding.md section 5, the encoding rule; the numbers of groups 8, E and F are the spec's decisions D2, D3, log
entries 2, 3). -/
def Obligations.DecodeOfEncodeIsIdentity : Prop :=
  ∀ (i : Instr) (rest : List Byte), i.wf = true → decode (encodeBytes i ++ rest) = .ok (i, rest)

/-- Encode after decode gives the word back but for the nibble that groups 5 and 9 ignore, which comes back as 0; and the decoder
answers well-formed instructions only (30_encoding.md section 5; D6, log entry 6). -/
def Obligations.EncodeOfDecodeIsCanonical : Prop :=
  ∀ w : Word, (decodeWord w).wf = true ∧
    encode (decodeWord w) = if opOf w = 0x5#4 ∨ opOf w = 0x9#4 then w &&& 0xFFF0#16 else w

/-- The decoder of 30_encoding.md R95 is the opcode table of R106: its rows tried in ascending priority, the first that matches. -/
def Obligations.DecoderIsFirstMatchingTableRow : Prop :=
  ∀ w : Word, firstMatch w opcodeTable = some (decodeWord w)

/-- A word decodes to UNKNOWN exactly when it is in the class 30_encoding.md section 4 lists, and it is then carried whole; a word
decodes to SYS exactly when its leading nibble is 0 and it is neither 00E0 nor 00EE (the class of group C and of the selectors
rests on D2, D3, D4: log entries 2, 3, 4). -/
def Obligations.UnknownIsTheUndefinedClass : Prop :=
  ∀ w : Word, ((∃ v, decodeWord w = .unknown v) ↔ unknownWord w = true) ∧
    (∀ v, decodeWord w = .unknown v → v = w) ∧
    ((∃ nnn, decodeWord w = .sys nnn) ↔ (w.toNat < 0x1000 ∧ w ≠ 0x00E0#16 ∧ w ≠ 0x00EE#16))

/-! ## Control transfer -/

/-- 40_cycle_and_control.md R124. -/
def Obligations.JumpSetsPc : Prop :=
  ∀ (nnn : Addr12) (s : State), decodeWord (formatA 0x1#4 nnn) = .jp nnn ∧
    ∃ t, exec (.jp nnn) s = .next t ∧ t.pc.toNat = nnn.toNat ∧ t.reply = .advanced ∧ Keeps {} s t

/-- 40_cycle_and_control.md section 2, CALL (the counter and the entries are the spec's decision D24, log entry 26; the latch is
D17, log entry 17): with room on the stack the return address `pc + 2` is pushed, every other entry stays, and `pc` is the target;
on a full stack the fault is latched and nothing else changes. -/
def Obligations.CallPushesAndJumps : Prop :=
  ∀ (nnn : Addr12) (s : State), decodeWord (formatA 0x2#4 nnn) = .call nnn ∧
    (s.sp.val ≠ 16 → ∃ t, exec (.call nnn) s = .next t ∧ t.sp.val = s.sp.val + 1 ∧
      (∀ k : Fin 16, t.stack[k.val] = if k.val = s.sp.val then s.pc + 2 else s.stack[k.val]) ∧
      t.pc.toNat = nnn.toNat ∧ t.reply = .advanced ∧ Keeps { stack := True } s t) ∧
    (s.sp.val = 16 → ∃ t, exec (.call nnn) s = .next t ∧ t.fault = some .stackOverflow ∧
      t.reply = .fault .stackOverflow ∧ t.pc = s.pc ∧ Keeps { fault := True } s t)

/-- 40_cycle_and_control.md section 2, RET (D24, log entry 26; D17, log entry 17): the newest entry is the next `pc` as it is, the
depth is one less, the entries stay (the popped one as a stale value); on an empty stack the fault is latched and nothing else
changes. -/
def Obligations.ReturnPopsPc : Prop :=
  ∀ s : State, decodeWord 0x00EE#16 = .ret ∧
    (∀ k : Fin 16, s.sp.val = k.val + 1 → ∃ t, exec .ret s = .next t ∧ t.pc = s.stack[k.val] ∧ t.sp.val = k.val ∧
      t.stack = s.stack ∧ t.reply = .advanced ∧ Keeps { stack := True } s t) ∧
    (s.sp.val = 0 → ∃ t, exec .ret s = .next t ∧ t.fault = some .stackUnderflow ∧
      t.reply = .fault .stackUnderflow ∧ t.pc = s.pc ∧ Keeps { fault := True } s t)

/-- Executing a call then a return restores the program counter to the address after the call, and the depth (40 R122's last
source sentence), whatever ran between them, if the stack is then as the call left it. -/
def Obligations.CallThenReturnResumes : Prop :=
  ∀ (nnn : Addr12) (s t u : State), s.sp.val ≠ 16 → exec (.call nnn) s = .next t → u.sp = t.sp → u.stack = t.stack →
    ∃ v, exec .ret u = .next v ∧ v.pc = s.pc + 2 ∧ v.sp = s.sp ∧ v.reply = .advanced

/-- 40_cycle_and_control.md R126, R127: 4 instead of 2 when the condition holds; nothing else changes. -/
def Obligations.SkipOnImmediate : Prop :=
  ∀ (x : RegIdx) (nn : Byte) (s : State),
    decodeWord (formatI 0x3#4 x nn) = .seImm x nn ∧ decodeWord (formatI 0x4#4 x nn) = .sneImm x nn ∧
    (∃ t, exec (.seImm x nn) s = .next t ∧ (s.reg x = nn → t.pc = s.pc + 4) ∧ (s.reg x ≠ nn → t.pc = s.pc + 2) ∧
      t.reply = .advanced ∧ Keeps {} s t) ∧
    (∃ t, exec (.sneImm x nn) s = .next t ∧ (s.reg x ≠ nn → t.pc = s.pc + 4) ∧ (s.reg x = nn → t.pc = s.pc + 2) ∧
      t.reply = .advanced ∧ Keeps {} s t)

/-- 40_cycle_and_control.md, the two register skips, for every trailing nibble `n` (that `n` is ignored is the spec's decision D6,
log entry 6). -/
def Obligations.SkipOnRegisters : Prop :=
  ∀ (x y : RegIdx) (n : BitVec 4) (s : State),
    decodeWord (formatR 0x5#4 x y n) = .seReg x y ∧ decodeWord (formatR 0x9#4 x y n) = .sneReg x y ∧
    (∃ t, exec (.seReg x y) s = .next t ∧ (s.reg x = s.reg y → t.pc = s.pc + 4) ∧
      (s.reg x ≠ s.reg y → t.pc = s.pc + 2) ∧ t.reply = .advanced ∧ Keeps {} s t) ∧
    (∃ t, exec (.sneReg x y) s = .next t ∧ (s.reg x ≠ s.reg y → t.pc = s.pc + 4) ∧
      (s.reg x = s.reg y → t.pc = s.pc + 2) ∧ t.reply = .advanced ∧ Keeps {} s t)

/-- 40_cycle_and_control.md, JP V0: the target is NNN + V0 as a number, not cut to 12 bits (the spec's decisions D26,
D30: log entries 27, 30). -/
def Obligations.JumpWithOffset : Prop :=
  ∀ (nnn : Addr12) (s : State), decodeWord (formatA 0xB#4 nnn) = .jpV0 nnn ∧
    ∃ t, exec (.jpV0 nnn) s = .next t ∧ t.pc.toNat = nnn.toNat + (s.reg 0).toNat ∧ t.reply = .advanced ∧ Keeps {} s t

/-- 40_cycle_and_control.md section 2, UNKNOWN (the class rests on D2, D3, D4: log entries 2, 3, 4; the latch is D17, log entry 17):
executing a word with no defined case latches UnknownInstruction; `pc` does not advance and
nothing else changes. -/
def Obligations.UnknownWordFaults : Prop :=
  ∀ (w : Word) (s : State), (unknownWord w = true → decodeWord w = .unknown w) ∧
    ∃ t, exec (.unknown w) s = .next t ∧ t.fault = some .unknownInstruction ∧ t.reply = .fault .unknownInstruction ∧
      t.pc = s.pc ∧ Keeps { fault := True } s t

/-- 40_cycle_and_control.md, SYS: decoded, and executing it latches UnknownInstruction (the spec's decision D5,
log entry 5; the latch is D17, log entry 17). -/
def Obligations.SysFaults : Prop :=
  ∀ (nnn : Addr12) (s : State), (nnn ≠ 0x0E0#12 → nnn ≠ 0x0EE#12 → decodeWord (formatA 0x0#4 nnn) = .sys nnn) ∧
    ∃ t, exec (.sys nnn) s = .next t ∧ t.fault = some .unknownInstruction ∧ t.reply = .fault .unknownInstruction ∧
      t.pc = s.pc ∧ Keeps { fault := True } s t

/-! ## Register load, arithmetic, logic, shifts -/

/-- 41_alu.md section 2, LD VX,NN and LD VX,VY (that the names mean this is D30, log entry 30): the destination takes the value;
every other register, VF too, stays. -/
def Obligations.LoadAndCopySetRegister : Prop :=
  ∀ (x y : RegIdx) (nn : Byte) (s : State),
    decodeWord (formatI 0x6#4 x nn) = .ldImm x nn ∧ decodeWord (formatR 0x8#4 x y 0x0#4) = .ldReg x y ∧
    (∃ t, exec (.ldImm x nn) s = .next t ∧ t.reg x = nn ∧ t.pc = s.pc + 2 ∧ t.reply = .advanced ∧
      Keeps { reg := fun r => r = x } s t) ∧
    (∃ t, exec (.ldReg x y) s = .next t ∧ t.reg x = s.reg y ∧ t.pc = s.pc + 2 ∧ t.reply = .advanced ∧
      Keeps { reg := fun r => r = x } s t)

/-- 41_alu.md, ADD VX, NN: the sum modulo 256, no flag (the spec's decisions D8, D30: log entries 8, 30). -/
def Obligations.AddImmediateWrapsWithoutFlag : Prop :=
  ∀ (x : RegIdx) (nn : Byte) (s : State), decodeWord (formatI 0x7#4 x nn) = .addImm x nn ∧
    ∃ t, exec (.addImm x nn) s = .next t ∧ (t.reg x).toNat = ((s.reg x).toNat + nn.toNat) % 256 ∧
      t.pc = s.pc + 2 ∧ t.reply = .advanced ∧ Keeps { reg := fun r => r = x } s t

/-- 41_alu.md, OR, AND, XOR: bit by bit, VF not written (sub-opcode numbers D2, no flag D8, meaning D30: log entries 2, 8,
30). -/
def Obligations.LogicActsBitwiseWithoutFlag : Prop :=
  ∀ (x y : RegIdx) (s : State),
    (decodeWord (formatR 0x8#4 x y 0x1#4) = .or x y ∧ decodeWord (formatR 0x8#4 x y 0x2#4) = .and x y ∧
      decodeWord (formatR 0x8#4 x y 0x3#4) = .xor x y) ∧
    (∃ t, exec (.or x y) s = .next t ∧
      (∀ k, k < 8 → (t.reg x).getLsbD k = ((s.reg x).getLsbD k || (s.reg y).getLsbD k)) ∧
      t.pc = s.pc + 2 ∧ t.reply = .advanced ∧ Keeps { reg := fun r => r = x } s t) ∧
    (∃ t, exec (.and x y) s = .next t ∧
      (∀ k, k < 8 → (t.reg x).getLsbD k = ((s.reg x).getLsbD k && (s.reg y).getLsbD k)) ∧
      t.pc = s.pc + 2 ∧ t.reply = .advanced ∧ Keeps { reg := fun r => r = x } s t) ∧
    (∃ t, exec (.xor x y) s = .next t ∧
      (∀ k, k < 8 → (t.reg x).getLsbD k = ((s.reg x).getLsbD k ^^ (s.reg y).getLsbD k)) ∧
      t.pc = s.pc + 2 ∧ t.reply = .advanced ∧ Keeps { reg := fun r => r = x } s t)

/-- 41_alu.md, ADD VX, VY: VX is the sum modulo 256; VF is 1 exactly when the sum passes 255, from the operands before the Cycle;
with X = 15 the sum stays in VF (order of writes: the spec's decision D7, log entry 7; sub-opcode number D2, log entry 2). -/
def Obligations.AddSetsCarry : Prop :=
  ∀ (x y : RegIdx) (s : State), decodeWord (formatR 0x8#4 x y 0x4#4) = .addReg x y ∧
    ∃ t, exec (.addReg x y) s = .next t ∧ (t.reg x).toNat = ((s.reg x).toNat + (s.reg y).toNat) % 256 ∧
      (x ≠ 15 → (t.reg 15).toNat = if (s.reg x).toNat + (s.reg y).toNat > 255 then 1 else 0) ∧
      t.pc = s.pc + 2 ∧ t.reply = .advanced ∧ Keeps { reg := fun r => r = x ∨ r = 15 } s t

/-- 41_alu.md, SUB and SUBN: the difference modulo 256 in VX; VF is 1 exactly when there is no borrow; with X = 15 the difference
stays (D7, log entry 7; sub-opcode numbers D2, log entry 2). -/
def Obligations.SubtractSetsNoBorrow : Prop :=
  ∀ (x y : RegIdx) (s : State),
    (decodeWord (formatR 0x8#4 x y 0x5#4) = .sub x y ∧ decodeWord (formatR 0x8#4 x y 0x7#4) = .subn x y) ∧
    (∃ t, exec (.sub x y) s = .next t ∧ (t.reg x).toNat = ((s.reg x).toNat + 256 - (s.reg y).toNat) % 256 ∧
      (x ≠ 15 → (t.reg 15).toNat = if (s.reg x).toNat ≥ (s.reg y).toNat then 1 else 0) ∧
      t.pc = s.pc + 2 ∧ t.reply = .advanced ∧ Keeps { reg := fun r => r = x ∨ r = 15 } s t) ∧
    (∃ t, exec (.subn x y) s = .next t ∧ (t.reg x).toNat = ((s.reg y).toNat + 256 - (s.reg x).toNat) % 256 ∧
      (x ≠ 15 → (t.reg 15).toNat = if (s.reg y).toNat ≥ (s.reg x).toNat then 1 else 0) ∧
      t.pc = s.pc + 2 ∧ t.reply = .advanced ∧ Keeps { reg := fun r => r = x ∨ r = 15 } s t)

/-- 41_alu.md, SHR and SHL: VX shifted by one, VF the bit shifted out of the old VX; VY is not used; with X = 15 the result stays
(D7, log entry 7; sub-opcode numbers D2, log entry 2). -/
def Obligations.ShiftsSetBitShiftedOut : Prop :=
  ∀ (x y : RegIdx) (s : State),
    (decodeWord (formatR 0x8#4 x y 0x6#4) = .shr x y ∧ decodeWord (formatR 0x8#4 x y 0xE#4) = .shl x y) ∧
    (∃ t, exec (.shr x y) s = .next t ∧ (t.reg x).toNat = (s.reg x).toNat / 2 ∧
      (x ≠ 15 → (t.reg 15).toNat = (s.reg x).toNat % 2) ∧
      t.pc = s.pc + 2 ∧ t.reply = .advanced ∧ Keeps { reg := fun r => r = x ∨ r = 15 } s t) ∧
    (∃ t, exec (.shl x y) s = .next t ∧ (t.reg x).toNat = (s.reg x).toNat * 2 % 256 ∧
      (x ≠ 15 → (t.reg 15).toNat = (s.reg x).toNat / 128) ∧
      t.pc = s.pc + 2 ∧ t.reply = .advanced ∧ Keeps { reg := fun r => r = x ∨ r = 15 } s t)

/-! ## Index register and memory -/

/-- 42_index_memory.md, LD I (that the name means this is D30, log entry 30). -/
def Obligations.LoadIndexSetsIndex : Prop :=
  ∀ (nnn : Addr12) (s : State), decodeWord (formatA 0xA#4 nnn) = .ldI nnn ∧
    ∃ t, exec (.ldI nnn) s = .next t ∧ t.idx.toNat = nnn.toNat ∧ t.pc = s.pc + 2 ∧ t.reply = .advanced ∧
      Keeps { idx := True } s t

/-- 42_index_memory.md, ADD I and LD F: `I + VX` modulo 2^16 with no flag (D9, D8: log entries 9, 8); `5 * d` for the low four bits
`d` of VX (D14, log entry 14). Selectors: D3, log entry 3; meaning: D30, log entry 30. -/
def Obligations.AddIndexAndFontSetIndex : Prop :=
  ∀ (x : RegIdx) (s : State),
    (decodeWord (formatI 0xF#4 x 0x1E#8) = .addI x ∧ decodeWord (formatI 0xF#4 x 0x29#8) = .ldF x) ∧
    (∃ t, exec (.addI x) s = .next t ∧ t.idx.toNat = (s.idx.toNat + (s.reg x).toNat) % 65536 ∧
      t.pc = s.pc + 2 ∧ t.reply = .advanced ∧ Keeps { idx := True } s t) ∧
    (∃ t, exec (.ldF x) s = .next t ∧ t.idx.toNat = 5 * ((s.reg x).toNat % 16) ∧
      t.pc = s.pc + 2 ∧ t.reply = .advanced ∧ Keeps { idx := True } s t)

/-- 42_index_memory.md R183: in range the three decimal digits are stored at the effective addresses `I`, `I+1`, `I+2` and every
other byte stays; out of range the Cycle answers OutOfBounds and nothing but the latch changes (what the latch then holds is in
EveryFaultHasItsCause). `s.mem.wf` is the canonical form of the model's
memory, which every step keeps. -/
def Obligations.BcdStoreWritesDigits : Prop :=
  ∀ (x : RegIdx) (s : State), s.mem.wf = true → decodeWord (formatI 0xF#4 x 0x33#8) = .ldB x ∧
    (s.idx.toNat + 2 ≤ 4095 → ∃ t, exec (.ldB x) s = .next t ∧
      (t.mem.read (effAddr s 0)).toNat = (s.reg x).toNat / 100 ∧
      (t.mem.read (effAddr s 1)).toNat = (s.reg x).toNat / 10 % 10 ∧
      (t.mem.read (effAddr s 2)).toNat = (s.reg x).toNat % 10 ∧
      t.pc = s.pc + 2 ∧ t.reply = .advanced ∧
      Keeps { byte := fun a => effAddr s 0 ≤ a ∧ a < effAddr s 3 } s t) ∧
    (s.idx.toNat + 2 > 4095 → ∃ t, exec (.ldB x) s = .next t ∧
      t.reply = .fault .outOfBounds ∧ t.pc = s.pc ∧ Keeps { fault := True } s t)

/-- 42_index_memory.md R184: in range `V[k]` is stored at the effective address `I + k` for `k` from 0 to X and every other byte
stays; out of range the Cycle answers OutOfBounds and nothing but the latch changes. -/
def Obligations.RegisterDumpWritesMemory : Prop :=
  ∀ (x : RegIdx) (s : State), s.mem.wf = true → decodeWord (formatI 0xF#4 x 0x55#8) = .stRegs x ∧
    (s.idx.toNat + x.val ≤ 4095 → ∃ t, exec (.stRegs x) s = .next t ∧
      (∀ k : RegIdx, k ≤ x → t.mem.read (effAddr s k.val) = s.reg k) ∧
      t.pc = s.pc + 2 ∧ t.reply = .advanced ∧
      Keeps { byte := fun a => effAddr s 0 ≤ a ∧ a < effAddr s (x.val + 1) } s t) ∧
    (s.idx.toNat + x.val > 4095 → ∃ t, exec (.stRegs x) s = .next t ∧
      t.reply = .fault .outOfBounds ∧ t.pc = s.pc ∧ Keeps { fault := True } s t)

/-- 42_index_memory.md R185: in range `V[k]` takes the byte at `I + k` for `k` from 0 to X, every register above X and all of
memory stay; out of range the Cycle answers OutOfBounds and nothing but the latch changes. And the round-trip law: loading from
the address a dump wrote to gives the dumped registers back, whatever the registers hold by then. -/
def Obligations.RegisterLoadReadsMemory : Prop :=
  ∀ (x : RegIdx) (s : State), decodeWord (formatI 0xF#4 x 0x65#8) = .ldRegs x ∧
    (s.idx.toNat + x.val ≤ 4095 → ∃ t, exec (.ldRegs x) s = .next t ∧
      (∀ k : RegIdx, k ≤ x → t.reg k = s.mem.read (effAddr s k.val)) ∧
      t.pc = s.pc + 2 ∧ t.reply = .advanced ∧ Keeps { reg := fun r => r ≤ x } s t) ∧
    (s.idx.toNat + x.val > 4095 → ∃ t, exec (.ldRegs x) s = .next t ∧
      t.reply = .fault .outOfBounds ∧ t.pc = s.pc ∧ Keeps { fault := True } s t) ∧
    (s.mem.wf = true → s.idx.toNat + x.val ≤ 4095 → ∀ t u, exec (.stRegs x) s = .next t → u.mem = t.mem →
      u.idx = s.idx → ∃ v, exec (.ldRegs x) u = .next v ∧ ∀ k : RegIdx, k ≤ x → v.reg k = s.reg k)

/-! ## Display -/

/-- 43_display.md, CLS: every pixel 0, VF not written (D8, log entry 8; that the name means this is D30, log entry 30). -/
def Obligations.ClearScreenClearsEveryPixel : Prop :=
  ∀ s : State, decodeWord 0x00E0#16 = .cls ∧
    ∃ t, exec .cls s = .next t ∧ (∀ px py, t.fb.pixel px py = false) ∧ t.pc = s.pc + 2 ∧ t.reply = .advanced ∧
      Keeps { fb := True } s t

/-- 43_display.md, DRW in range (N = 0 always is): exactly the pixels under a set sprite bit are inverted, each coordinate wrapped
(D12, log entry 12), bit 7 leftmost (D13, log entry 13); VF is 1 exactly when one of them was 1; nothing else changes. The
coordinates are the registers before the Cycle, VF too. -/
def Obligations.DrawInvertsExactlyTheSprite : Prop :=
  ∀ (x y : RegIdx) (n : Fin 16) (s : State), decodeWord (formatR 0xD#4 x y (BitVec.ofFin n)) = .drw x y n ∧
    (n.val = 0 ∨ s.idx.toNat + n.val ≤ 4096 → ∃ t, exec (.drw x y n) s = .next t ∧
      (∀ px py, UnderSprite s x y n.val px py → t.fb.pixel px py = !(s.fb.pixel px py)) ∧
      (∀ px py, ¬ UnderSprite s x y n.val px py → t.fb.pixel px py = s.fb.pixel px py) ∧
      ((∃ px py, UnderSprite s x y n.val px py ∧ s.fb.pixel px py = true) → t.reg 15 = 0x01#8) ∧
      ((¬ ∃ px py, UnderSprite s x y n.val px py ∧ s.fb.pixel px py = true) → t.reg 15 = 0x00#8) ∧
      t.pc = s.pc + 2 ∧ t.reply = .advanced ∧ Keeps { reg := fun r => r = 15, fb := True } s t)

/-- 43_display.md, DRW out of range: OutOfBounds is latched (D17, log entry 17), no pixel and no register changes. -/
def Obligations.DrawOutOfRangeFaults : Prop :=
  ∀ (x y : RegIdx) (n : Fin 16) (s : State), n.val > 0 → s.idx.toNat + n.val - 1 > 4095 →
    ∃ t, exec (.drw x y n) s = .next t ∧ t.fault = some .outOfBounds ∧ t.reply = .fault .outOfBounds ∧
      t.pc = s.pc ∧ Keeps { fault := True } s t

/-- 43_display.md, the double-draw law (neither coordinate register being VF, which the first draw overwrites): the second draw
gives every pixel back, and its VF is 1 exactly when a pixel under a set sprite bit was 0 before the first draw. Which pixels lie
under the sprite rests on the wrap D12 and the bit order D13 (log entries 12, 13). -/
def Obligations.DoubleDrawRestoresScreen : Prop :=
  ∀ (x y : RegIdx) (n : Fin 16) (s t u : State), x ≠ 15 → y ≠ 15 → (n.val = 0 ∨ s.idx.toNat + n.val ≤ 4096) →
    exec (.drw x y n) s = .next t → exec (.drw x y n) t = .next u →
    u.fb = s.fb ∧
      ((∃ px py, UnderSprite s x y n.val px py ∧ s.fb.pixel px py = false) → u.reg 15 = 0x01#8) ∧
      ((¬ ∃ px py, UnderSprite s x y n.val px py ∧ s.fb.pixel px py = false) → u.reg 15 = 0x00#8)

/-! ## Keypad and timers -/

/-- 44_keypad_timers.md, SKP and SKNP: the key whose index is the low four bits of VX (D15, log entry 15; selectors D3, log
entry 3; meaning D30, log entry 30); keys are only read. -/
def Obligations.SkipOnKeyState : Prop :=
  ∀ (x : RegIdx) (k : Key) (s : State), k.val = (s.reg x).toNat % 16 →
    (decodeWord (formatI 0xE#4 x 0x9E#8) = .skp x ∧ decodeWord (formatI 0xE#4 x 0xA1#8) = .sknp x) ∧
    (∃ t, exec (.skp x) s = .next t ∧ (s.keys[k.val] = true → t.pc = s.pc + 4) ∧
      (s.keys[k.val] = false → t.pc = s.pc + 2) ∧ t.reply = .advanced ∧ Keeps {} s t) ∧
    (∃ t, exec (.sknp x) s = .next t ∧ (s.keys[k.val] = false → t.pc = s.pc + 4) ∧
      (s.keys[k.val] = true → t.pc = s.pc + 2) ∧ t.reply = .advanced ∧ Keeps {} s t)

/-- 44_keypad_timers.md R219: with a press reported the key's index is stored and `pc` advances; with none the Cycle is Blocked and
nothing changes, `pc` included, whatever `keys` holds. -/
def Obligations.KeyWaitStoresPressOrBlocks : Prop :=
  ∀ (x : RegIdx) (s : State), decodeWord (formatI 0xF#4 x 0x0A#8) = .ldVxK x ∧
    (∀ k : Key, s.press = some k → ∃ t, exec (.ldVxK x) s = .next t ∧ (t.reg x).toNat = k.val ∧ t.pc = s.pc + 2 ∧
      t.reply = .advanced ∧ Keeps { reg := fun r => r = x } s t) ∧
    (s.press = none → ∃ t, exec (.ldVxK x) s = .next t ∧ t.pc = s.pc ∧ t.reply = .blocked ∧ Keeps {} s t)

/-- While no press is reported a blocked core stays blocked (10_state.md section 7; 44_keypad_timers.md sections 2, 4; that Ticks go
on is D19, log entry 18): after any number of Cycles with no press
and with any Ticks between them, `pc`, the registers, `I`, the stack, the pixels, every byte of memory and the latch are as they
were, and the core is still blocked on the key. -/
def Obligations.BlockedCoreStaysBlocked : Prop :=
  ∀ (rs : List Request) (s : State), BlockedOnKey s → s.pending = rs → (∀ r ∈ rs, r = .cycle none ∨ r = .tick) →
    ∃ t, stepN rs.length s = .next t ∧ BlockedOnKey t ∧ t.pc = s.pc ∧ t.pending = [] ∧ t.regs = s.regs ∧ t.idx = s.idx ∧
      t.sp = s.sp ∧ t.stack = s.stack ∧ t.fb = s.fb ∧ (∀ a, t.mem.read a = s.mem.read a) ∧ t.fault = s.fault

/-- 44_keypad_timers.md, LD VX,DT, LD DT,VX and LD ST,VX (selectors: D3, log entry 3; meaning: D30, log entry 30): each moves one
byte and leaves the other timer alone. -/
def Obligations.TimerInstructionsMoveOneByte : Prop :=
  ∀ (x : RegIdx) (s : State),
    (decodeWord (formatI 0xF#4 x 0x07#8) = .ldVxDt x ∧ decodeWord (formatI 0xF#4 x 0x15#8) = .ldDtVx x ∧
      decodeWord (formatI 0xF#4 x 0x18#8) = .ldStVx x) ∧
    (∃ t, exec (.ldVxDt x) s = .next t ∧ t.reg x = s.dt ∧ t.pc = s.pc + 2 ∧ t.reply = .advanced ∧
      Keeps { reg := fun r => r = x } s t) ∧
    (∃ t, exec (.ldDtVx x) s = .next t ∧ t.dt = s.reg x ∧ t.pc = s.pc + 2 ∧ t.reply = .advanced ∧
      Keeps { dt := True } s t) ∧
    (∃ t, exec (.ldStVx x) s = .next t ∧ t.st = s.reg x ∧ t.pc = s.pc + 2 ∧ t.reply = .advanced ∧
      Keeps { st := True } s t)

/-- A Tick step (44_keypad_timers.md, the Timer Driver), in every state, halted or blocked ones too (the spec's decision D19, log
entry 18): each timer that is not 0 loses 1, and nothing else changes but the list of requests. -/
def Obligations.TickDecrementsNonzeroTimers : Prop :=
  ∀ s : State, s.nextRequest = some .tick → ∃ t, step s = .next t ∧
    (s.dt ≠ 0x00#8 → t.dt.toNat + 1 = s.dt.toNat) ∧ (s.dt = 0x00#8 → t.dt = 0x00#8) ∧
    (s.st ≠ 0x00#8 → t.st.toNat + 1 = s.st.toNat) ∧ (s.st = 0x00#8 → t.st = 0x00#8) ∧
    t.pc = s.pc ∧ Keeps { dt := True, st := True } s.dropRequest t

/-- N Ticks on a timer at V leave it at V - N, and at 0 when N is V or more (44_keypad_timers.md, the Timer Driver's last source
sentence); `sound_active` is then up exactly while N is less than the sound timer's value. -/
def Obligations.TicksCountDownToZero : Prop :=
  ∀ (n : Nat) (s : State) (rest : List Request), s.pending = List.replicate n .tick ++ rest →
    ∃ t, stepN n s = .next t ∧ t.dt.toNat = s.dt.toNat - n ∧ t.st.toNat = s.st.toNat - n ∧
      (soundActive t = true ↔ n < s.st.toNat) ∧ t.pending = rest ∧ t.pc = s.pc ∧ t.regs = s.regs ∧ t.fault = s.fault

/-! ## The Cycle -/

/-- A STEP RUNS THE DECODED INSTRUCTION (40_cycle_and_control.md, the cycle; 20_memory.md, fetch with the byte order of D1, log
entry 1): when the next request is a Cycle, the core is not halted and both bytes at `pc` exist, the step is exec of the
instruction their word decodes to, at the state with the request taken off and its press report presented; what the step adds
afterwards is that the report is spent and loads are over. -/
def Obligations.StepRunsDecodedInstruction : Prop :=
  ∀ (s : State) (p : Option Key), s.nextRequest = some (.cycle p) → s.fault = none → s.pc.toNat + 1 ≤ 4095 →
    step s = mapNext State.endCycle
      (exec (decodeWord (wordOfBytes (s.mem.read s.pc.toNat) (s.mem.read (s.pc.toNat + 1)))) (s.dropRequest.setPress p))

/-- A placed word is what the next step runs, from every state, with the press of the Cycle that is its next request (log entry 29:
how a program comes to run; byte order D1, log entry 1). -/
def Obligations.PlacedWordRunsNext : Prop :=
  ∀ (s : State) (w : Nat) (i : Instr), s.mem.wf = true → decodeTableWord 16 w = some i →
    ∃ p, (s.withFetchWord 16 w).nextRequest = some (.cycle p) ∧
      step (s.withFetchWord 16 w) = mapNext State.endCycle (exec i ((s.withFetchWord 16 w).dropRequest.setPress p))

/-- 20_memory.md, fetch: a Cycle whose second fetch byte lies above 4095 latches OutOfBounds, with no state changed but the request
and the press report it used up (the unbounded address is D10, log entry 10; the latch is D17, log
entry 17). -/
def Obligations.FetchOutOfRangeFaults : Prop :=
  ∀ (s : State) (p : Option Key), s.nextRequest = some (.cycle p) → s.fault = none → s.pc.toNat + 1 > 4095 →
    ∃ t, step s = .next t ∧ t.fault = some .outOfBounds ∧ t.reply = .fault .outOfBounds ∧ t.pc = s.pc ∧
      Keeps { fault := True } s.dropRequest.endCycle t

/-- 60_exceptions.md, after a fault: a Cycle of a halted core answers the latched kind again and changes nothing but the request and
the press report it used up (the latch is the spec's decision D17, log entry 17). -/
def Obligations.HaltedCycleReportsSameFault : Prop :=
  ∀ (s : State) (p : Option Key) (f : Fault), s.nextRequest = some (.cycle p) → s.fault = some f →
    ∃ t, step s = .next t ∧ t.reply = .fault f ∧ t.pc = s.pc ∧ Keeps {} s.dropRequest.endCycle t

/-- 00_scope.md section 4 (the latch and its value are the spec's decision D17, log entry 17): a Cycle has exactly one of three
outcomes. Advanced: the core is not halted, the fetch is in range, `pc` took the next value of the instruction executed, and
nothing changed but what that instruction's row of the read/write summary lists (D8, log entry 8) and the request and the press
report used up. Blocked: that instruction is the key wait, no press was reported, and no state changed. Fault: no state changed
but the latch, which holds the kind reported. -/
def Obligations.CycleHasOneOfThreeOutcomes : Prop :=
  ∀ (s : State) (p : Option Key), s.nextRequest = some (.cycle p) → ∃ t, step s = .next t ∧
    ((t.reply = .advanced ∧ s.fault = none ∧ t.fault = none ∧
        ∃ w, fetch s = some w ∧ t.pc = nextPc (decodeWord w) s ∧
          Keeps (writesOf (decodeWord w) s) s.dropRequest.endCycle t) ∨
      (t.reply = .blocked ∧ p = none ∧ BlockedOnKey s ∧ t.pc = s.pc ∧ Keeps {} s.dropRequest.endCycle t) ∨
      (∃ f, t.reply = .fault f ∧ t.fault = some f ∧ t.pc = s.pc ∧ Keeps { fault := True } s.dropRequest.endCycle t))

/-- A store is seen by the very next fetch of its address (20_memory.md, fetch coherence; the spec's decision D25, log entry 32;
byte order D1, log entry 1): after LD [I],VX or LD B,VX, wherever the stored run lies, the next fetch reads at each of its two
addresses the byte stored there, and at an address outside the run the byte that was there before. -/
def Obligations.StoreIsSeenByNextFetch : Prop :=
  ∀ (x : RegIdx) (s t : State), s.mem.wf = true → t.reply = .advanced → t.pc.toNat + 1 ≤ 4095 →
    (exec (.stRegs x) s = .next t →
      (∀ k : RegIdx, k ≤ x → NextFetchReads t (effAddr s k.val) (s.reg k)) ∧
      (∀ a, a < effAddr s 0 ∨ effAddr s (x.val + 1) ≤ a → NextFetchReads t a (s.mem.read a))) ∧
    (exec (.ldB x) s = .next t →
      NextFetchReads t (effAddr s 0) (BitVec.ofNat 8 ((s.reg x).toNat / 100)) ∧
      NextFetchReads t (effAddr s 1) (BitVec.ofNat 8 ((s.reg x).toNat / 10 % 10)) ∧
      NextFetchReads t (effAddr s 2) (BitVec.ofNat 8 ((s.reg x).toNat % 10)) ∧
      (∀ a, a < effAddr s 0 ∨ effAddr s 3 ≤ a → NextFetchReads t a (s.mem.read a)))

/-- The end of a run (60_exceptions.md; the spec's convention D29, log entry 33) is final in all but the timers: a Cycle there
advances, changes nothing but the request and the press report it used up, and leaves the end of the run. -/
def Obligations.EndOfRunIsStable : Prop :=
  ∀ (s : State) (p : Option Key), EndOfRun s → s.nextRequest = some (.cycle p) →
    ∃ t, step s = .next t ∧ t.reply = .advanced ∧ t.pc = s.pc ∧ Keeps {} s.dropRequest.endCycle t ∧ EndOfRun t

/-! ## Whole-machine rules -/

/-- Faults leave no partial effect (60_exceptions.md, precise faults): whatever the instruction, if it changes the latch, it changes
nothing else, `pc` included (the latch is the spec's decision D17, log entry 17). -/
def Obligations.FaultLeavesNoPartialEffect : Prop :=
  ∀ (i : Instr) (s t : State), exec i s = .next t → t.fault ≠ s.fault → t.pc = s.pc ∧ Keeps { fault := True } s t

/-- Which instruction can raise what, in full (60_exceptions.md, the table of causes): from a core that is not halted, the latch
after any instruction is exactly the cause the table gives it (the latch is D17, log entry 17; SYS is D5, log entry 5). -/
def Obligations.EveryFaultHasItsCause : Prop :=
  ∀ (i : Instr) (s : State), s.fault = none → ∃ t, exec i s = .next t ∧ t.fault = faultCause i s

/-- The write half of the read/write summary (10_state.md section 6): whatever the instruction, only what its row lists may change
(VF after the instructions with no stated flag effect is D8, log entry 8). -/
def Obligations.InstructionsWriteOnlyTheirRow : Prop :=
  ∀ (i : Instr) (s t : State), exec i s = .next t → Keeps (writesOf i s) s t

/-- The inputs reach only the instructions the read/write summary names (10_state.md section 6; 40_cycle_and_control.md, "`press` is
used by LD VX, K only"): every other instruction does the same whatever is reported, and every instruction but the two key skips
does the same whatever keys are down. -/
def Obligations.InputsReachOnlyTheirReaders : Prop :=
  ∀ (i : Instr) (s : State) (p : Option Key) (keys : Vector Bool 16),
    ((∀ x, i ≠ .ldVxK x) → exec i (s.setPress p) = mapNext (fun t => t.setPress p) (exec i s)) ∧
    ((∀ x, i ≠ .skp x ∧ i ≠ .sknp x) → exec i (s.setKeys keys) = mapNext (fun t => t.setKeys keys) (exec i s))

/-- The sound timer is read by no instruction, and the delay timer by LD VX, DT alone (10_state.md section 3): with another value
in the timer, every other instruction does the same to everything else, and the timer keeps that value unless it is the one the
instruction sets. -/
def Obligations.TimersAreReadOnlyByFx07 : Prop :=
  ∀ (i : Instr) (s : State) (v : Byte),
    ((∀ x, i ≠ .ldStVx x) → exec i (s.setSt v) = mapNext (fun t => t.setSt v) (exec i s)) ∧
    ((∀ x, i ≠ .ldDtVx x ∧ i ≠ .ldVxDt x) → exec i (s.setDt v) = mapNext (fun t => t.setDt v) (exec i s)) ∧
    (∀ x, exec (.ldStVx x) (s.setSt v) = exec (.ldStVx x) s) ∧
    (∀ x, exec (.ldDtVx x) (s.setDt v) = exec (.ldDtVx x) s)

/-! ## Invariant -/

/-- The invariant holds after reset: memory is canonical, `pc` is at its entry, and no stack entry is valid (10_state.md section
8; that the stack is empty is the spec's decision D20, log entry 20). -/
def Obligations.ResetMeetsInvariant : Prop := Inv State.reset

/-- Every step keeps the invariant, from every state that meets it, whatever the host requests: memory stays canonical, `pc` stays
at most 0x10FE and every valid return address at most 4096 (10_state.md section 2, the bounds on `pc`). -/
def Obligations.StepKeepsInvariant : Prop :=
  ∀ s t : State, Inv s → step s = .next t → Inv t

/-! ## Reset and the host -/

/-- What reset leaves (10_state.md section 8). That the stack, its depth, the timers and the pixels are among what is zeroed is the
spec's decision D20, log entry 20; the latch is D17, log entry 17. -/
def Obligations.ResetStateIsZeroedAtEntry : Prop :=
  (∀ x, State.reset.reg x = 0x00#8) ∧ State.reset.idx = 0x0000#16 ∧ State.reset.pc = 0x0200#16 ∧ State.reset.sp = 0 ∧
  (∀ k : Fin 16, State.reset.stack[k.val] = 0x0000#16) ∧ State.reset.dt = 0x00#8 ∧ State.reset.st = 0x00#8 ∧
  (∀ px py, State.reset.fb.pixel px py = false) ∧ (∀ a, State.reset.mem.read a = 0x00#8) ∧ State.reset.fault = none

/-- A Reset request, in every state, a halted one too: every piece of the core's state takes its reset value, and loads are possible
again (70_reset_and_hazards.md sections 1, 5; 20_memory.md section 8; D17, D20, D21: log entries 17, 20, 24); the key states are the
host's and stay, and the requests after it are served next (log entry 23). -/
def Obligations.ResetRequestResetsEveryState : Prop :=
  ∀ s : State, s.nextRequest = some .reset → ∃ t, step s = .next t ∧
    (∀ x, t.reg x = 0x00#8) ∧ t.idx = 0x0000#16 ∧ t.pc = 0x0200#16 ∧ t.sp = 0 ∧
    (∀ k : Fin 16, t.stack[k.val] = 0x0000#16) ∧ t.dt = 0x00#8 ∧ t.st = 0x00#8 ∧ soundActive t = false ∧
    (∀ px py, t.fb.pixel px py = false) ∧ (∀ a, t.mem.read a = 0x00#8) ∧ t.fault = none ∧
    t.started = false ∧ t.keys = s.keys ∧ t.pending = s.pending.tail

/-- LoadProgram between Reset and the first Cycle (20_memory.md section 8; the spec's decision D21, log entries 24, 25): an image of
at most 3584 bytes is placed from 0x200 on and nothing else changes; a longer one is turned away to the host with no byte written
and the latch untouched; after the first Cycle the request has no move. -/
def Obligations.LoadProgramPlacesImage : Prop :=
  ∀ (bytes : List Byte) (s : State), s.mem.wf = true → s.nextRequest = some (.loadProgram bytes) →
    (s.started = false → bytes.length ≤ 3584 → ∃ t, step s = .next t ∧ t.reply = .ok ∧
      (∀ k (hk : k < bytes.length), t.mem.read (0x200 + k) = bytes[k]) ∧ t.pc = s.pc ∧
      Keeps { byte := fun a => 0x200 ≤ a ∧ a < 0x200 + bytes.length } s.dropRequest t) ∧
    (s.started = false → bytes.length > 3584 → ∃ t, step s = .next t ∧ t.reply = .outOfBounds ∧ t.pc = s.pc ∧
      Keeps {} s.dropRequest t) ∧
    (s.started = true → step s = .refused .hostLoadDuringRun)

/-- Preload is the same at any start address (20_memory.md section 8; D14, D21: log entries 14, 24, 25): before the first Cycle a
run in range is placed and nothing else changes, one out of range is turned away to the host with no byte written and the latch
untouched; after the first Cycle the request has no move. -/
def Obligations.PreloadPlacesBytes : Prop :=
  ∀ (addr : Nat) (bytes : List Byte) (s : State), s.mem.wf = true → s.nextRequest = some (.preload addr bytes) →
    (s.started = false → bytes.length = 0 ∨ addr + bytes.length - 1 ≤ 4095 → ∃ t, step s = .next t ∧ t.reply = .ok ∧
      (∀ k (hk : k < bytes.length), t.mem.read (addr + k) = bytes[k]) ∧ t.pc = s.pc ∧
      Keeps { byte := fun a => addr ≤ a ∧ a < addr + bytes.length } s.dropRequest t) ∧
    (s.started = false → 0 < bytes.length → addr + bytes.length - 1 > 4095 → ∃ t, step s = .next t ∧
      t.reply = .outOfBounds ∧ t.pc = s.pc ∧ Keeps {} s.dropRequest t) ∧
    (s.started = true → step s = .refused .hostLoadDuringRun)

/-- The key states are the host's to write, between any two steps, and a write changes nothing else (44_keypad_timers.md section
1). -/
def Obligations.HostWritesKeyStates : Prop :=
  ∀ (keys : Vector Bool 16) (s : State), s.nextRequest = some (.setKeys keys) → ∃ t, step s = .next t ∧ t.pc = s.pc ∧
    Keeps {} (s.dropRequest.setKeys keys) t

/-- What the host's debug read port answers, for each of its eight selects (70_reset_and_hazards.md section 5, the connection list;
20_memory.md section 8; the spec's decisions D21, D22; that values are zero-extended, that a register or an entry past 15 is out of
range, and that the single registers ignore the address is log entry 37). It is a function of the state, so it changes nothing. -/
def Obligations.HostReadPortAnswersState : Prop :=
  ∀ (s : State) (addr : Nat),
    (∀ k : RegIdx, ∃ v, hostRead .regs k.val s = .ok v ∧ v.toNat = (s.reg k).toNat) ∧
    (∀ k : Fin 16, hostRead .stack k.val s = .ok s.stack[k.val]) ∧
    (addr ≤ 4095 → ∃ v, hostRead .mem addr s = .ok v ∧ v.toNat = (s.mem.read addr).toNat) ∧
    hostRead .idx addr s = .ok s.idx ∧ hostRead .pc addr s = .ok s.pc ∧
    (∃ v, hostRead .sp addr s = .ok v ∧ v.toNat = s.sp.val) ∧
    (∃ v, hostRead .dt addr s = .ok v ∧ v.toNat = s.dt.toNat) ∧
    (∃ v, hostRead .st addr s = .ok v ∧ v.toNat = s.st.toNat) ∧
    (addr ≥ 16 → hostRead .regs addr s = .error .outOfBounds ∧ hostRead .stack addr s = .error .outOfBounds) ∧
    (addr > 4095 → hostRead .mem addr s = .error .outOfBounds)

/-- The host's read ports show the full state (20_memory.md section 8; 60_exceptions.md section 7; the fault codes are D17, log
entry 17; log entry 37): two states with
canonical memory that answer the same at every select and address, at every pixel and at `fault_kind` agree on all of the core's
state, so a snapshot taken through the ports loses nothing. -/
def Obligations.HostReadPortsSeeWholeState : Prop :=
  ∀ s t : State, s.mem.wf = true → t.mem.wf = true → (∀ sel addr, hostRead sel addr t = hostRead sel addr s) →
    (∀ x y, hostReadPixel t x y = hostReadPixel s x y) → faultKind t = faultKind s →
    t.regs = s.regs ∧ t.idx = s.idx ∧ t.pc = s.pc ∧ t.stack = s.stack ∧ t.sp = s.sp ∧ t.dt = s.dt ∧ t.st = s.st ∧
      t.fb = s.fb ∧ t.mem = s.mem ∧ t.fault = s.fault

/-- A host that asks for nothing leaves the state as it is (60_exceptions.md section 8, of a host that stops issuing Cycle; that an
idle step is a step of the model is log entry 19): after `n` steps that end with no request pending, any further number of steps
changes nothing at all. -/
def Obligations.SilentHostLeavesState : Prop :=
  ∀ (n k : Nat) (s t : State), stepN n s = .next t → t.pending = [] → stepN (n + k) s = .next t
end

