-- ==== Sys2Proof/Laws/Decode.lean ====
section
/-! SUPPORT. The fields of a word put together by a format (30_encoding.md R91, R92), and a word against its two bytes. -/

namespace Sys2Proof

/-! ## Fields in numbers -/

theorem toNat_opOf (w : Word) : (opOf w).toNat = w.toNat / 0x1000 := by
  have := w.isLt
  simp only [opOf, BitVec.extractLsb'_toNat, Nat.shiftRight_eq_div_pow]
  omega

theorem val_xOf (w : Word) : (xOf w).val = w.toNat / 0x100 % 0x10 := by
  simp [xOf, Nat.shiftRight_eq_div_pow]

theorem val_yOf (w : Word) : (yOf w).val = w.toNat / 0x10 % 0x10 := by
  simp [yOf, Nat.shiftRight_eq_div_pow]

theorem toNat_nOf (w : Word) : (nOf w).toNat = w.toNat % 0x10 := by
  simp [nOf]

theorem toNat_nnOf (w : Word) : (nnOf w).toNat = w.toNat % 0x100 := by
  simp [nnOf]

theorem toNat_nnnOf (w : Word) : (nnnOf w).toNat = w.toNat % 0x1000 := by
  simp [nnnOf]

theorem toNat_formatA (op : BitVec 4) (nnn : Addr12) : (formatA op nnn).toNat = op.toNat * 0x1000 + nnn.toNat := by
  have := op.isLt
  have := nnn.isLt
  simp only [formatA, BitVec.toNat_ofNat]
  omega

theorem toNat_formatI (op : BitVec 4) (x : RegIdx) (nn : Byte) :
    (formatI op x nn).toNat = op.toNat * 0x1000 + x.val * 0x100 + nn.toNat := by
  have := op.isLt
  have := x.isLt
  have := nn.isLt
  simp only [formatI, BitVec.toNat_ofNat]
  omega

theorem toNat_formatR (op : BitVec 4) (x y : RegIdx) (n : BitVec 4) :
    (formatR op x y n).toNat = op.toNat * 0x1000 + x.val * 0x100 + y.val * 0x10 + n.toNat := by
  have := op.isLt
  have := x.isLt
  have := y.isLt
  have := n.isLt
  simp only [formatR, BitVec.toNat_ofNat]
  omega

/-! ## Fields of a format -/

@[simp] theorem opOf_formatA (op : BitVec 4) (nnn : Addr12) : opOf (formatA op nnn) = op := by
  have := nnn.isLt
  apply BitVec.eq_of_toNat_eq
  rw [toNat_opOf, toNat_formatA]
  omega

@[simp] theorem nnnOf_formatA (op : BitVec 4) (nnn : Addr12) : nnnOf (formatA op nnn) = nnn := by
  have := nnn.isLt
  apply BitVec.eq_of_toNat_eq
  rw [toNat_nnnOf, toNat_formatA]
  omega

@[simp] theorem opOf_formatI (op : BitVec 4) (x : RegIdx) (nn : Byte) : opOf (formatI op x nn) = op := by
  have := x.isLt
  have := nn.isLt
  apply BitVec.eq_of_toNat_eq
  rw [toNat_opOf, toNat_formatI]
  omega

@[simp] theorem xOf_formatI (op : BitVec 4) (x : RegIdx) (nn : Byte) : xOf (formatI op x nn) = x := by
  have := x.isLt
  have := nn.isLt
  apply Fin.ext
  rw [val_xOf, toNat_formatI]
  omega

@[simp] theorem nnOf_formatI (op : BitVec 4) (x : RegIdx) (nn : Byte) : nnOf (formatI op x nn) = nn := by
  have := nn.isLt
  apply BitVec.eq_of_toNat_eq
  rw [toNat_nnOf, toNat_formatI]
  omega

@[simp] theorem opOf_formatR (op : BitVec 4) (x y : RegIdx) (n : BitVec 4) : opOf (formatR op x y n) = op := by
  have := x.isLt
  have := y.isLt
  have := n.isLt
  apply BitVec.eq_of_toNat_eq
  rw [toNat_opOf, toNat_formatR]
  omega

@[simp] theorem xOf_formatR (op : BitVec 4) (x y : RegIdx) (n : BitVec 4) : xOf (formatR op x y n) = x := by
  have := x.isLt
  have := y.isLt
  have := n.isLt
  apply Fin.ext
  rw [val_xOf, toNat_formatR]
  omega

@[simp] theorem yOf_formatR (op : BitVec 4) (x y : RegIdx) (n : BitVec 4) : yOf (formatR op x y n) = y := by
  have := y.isLt
  have := n.isLt
  apply Fin.ext
  rw [val_yOf, toNat_formatR]
  omega

@[simp] theorem nOf_formatR (op : BitVec 4) (x y : RegIdx) (n : BitVec 4) : nOf (formatR op x y n) = n := by
  have := n.isLt
  apply BitVec.eq_of_toNat_eq
  rw [toNat_nOf, toNat_formatR]
  omega

/-! ## The masks of the opcode table -/

theorem toNat_and_F000 (w : Word) : (w &&& 0xF000#16).toNat = w.toNat / 0x1000 * 0x1000 := by
  have h : w &&& 0xF000#16 = (w >>> 12) <<< 12 := by
    ext i hi
    interval_cases i <;> simp
  have := w.isLt
  rw [h]
  simp only [BitVec.toNat_shiftLeft, BitVec.toNat_ushiftRight, Nat.shiftLeft_eq, Nat.shiftRight_eq_div_pow]
  omega

theorem toNat_and_F00F (w : Word) : (w &&& 0xF00F#16).toNat = w.toNat / 0x1000 * 0x1000 + w.toNat % 0x10 := by
  have h : w &&& 0xF00F#16 = (w >>> 12) <<< 12 + (w <<< 12) >>> 12 := by
    rw [BitVec.add_eq_or_of_and_eq_zero]
    · ext i hi
      interval_cases i <;> simp
    · ext i hi
      interval_cases i <;> simp
  have := w.isLt
  rw [h]
  simp only [BitVec.toNat_add, BitVec.toNat_shiftLeft, BitVec.toNat_ushiftRight, Nat.shiftLeft_eq,
    Nat.shiftRight_eq_div_pow]
  omega

theorem toNat_and_F0FF (w : Word) : (w &&& 0xF0FF#16).toNat = w.toNat / 0x1000 * 0x1000 + w.toNat % 0x100 := by
  have h : w &&& 0xF0FF#16 = (w >>> 12) <<< 12 + (w <<< 8) >>> 8 := by
    rw [BitVec.add_eq_or_of_and_eq_zero]
    · ext i hi
      interval_cases i <;> simp
    · ext i hi
      interval_cases i <;> simp
  have := w.isLt
  rw [h]
  simp only [BitVec.toNat_add, BitVec.toNat_shiftLeft, BitVec.toNat_ushiftRight, Nat.shiftLeft_eq,
    Nat.shiftRight_eq_div_pow]
  omega

/-- A row of the table that fixes the leading nibble (30_encoding.md R106). -/
theorem and_F000_eq_iff (w : Word) (k : BitVec 4) : w &&& 0xF000#16 = BitVec.ofNat 16 (k.toNat * 0x1000) ↔ opOf w = k := by
  have := k.isLt
  have := w.isLt
  rw [← BitVec.toNat_inj, ← BitVec.toNat_inj, toNat_and_F000, toNat_opOf, BitVec.toNat_ofNat]
  omega

/-- A row that fixes the leading and the trailing nibble. -/
theorem and_F00F_eq_iff (w : Word) (k n : BitVec 4) : w &&& 0xF00F#16 = formatR k 0 0 n ↔ opOf w = k ∧ nOf w = n := by
  have := k.isLt
  have := w.isLt
  have := n.isLt
  rw [← BitVec.toNat_inj, ← BitVec.toNat_inj, ← BitVec.toNat_inj, toNat_and_F00F, toNat_opOf, toNat_nOf, toNat_formatR]
  simp
  omega

/-- A row that fixes the leading nibble and the trailing byte. -/
theorem and_F0FF_eq_iff (w : Word) (k : BitVec 4) (n : Byte) : w &&& 0xF0FF#16 = formatI k 0 n ↔ opOf w = k ∧ nnOf w = n := by
  have := k.isLt
  have := w.isLt
  have := n.isLt
  rw [← BitVec.toNat_inj, ← BitVec.toNat_inj, ← BitVec.toNat_inj, toNat_and_F0FF, toNat_opOf, toNat_nnOf, toNat_formatI]
  simp
  omega
/-! ## A word and its bytes -/

theorem toNat_wordOfBytes (a b : Byte) : (wordOfBytes a b).toNat = a.toNat * 0x100 + b.toNat := by
  have := a.isLt
  have := b.isLt
  simp only [wordOfBytes, BitVec.toNat_ofNat]
  omega

theorem toNat_firstByte (w : Word) : (firstByte w).toNat = w.toNat / 0x100 := by
  have := w.isLt
  simp only [firstByte, BitVec.extractLsb'_toNat, Nat.shiftRight_eq_div_pow]
  omega

theorem toNat_secondByte (w : Word) : (secondByte w).toNat = w.toNat % 0x100 := by
  simp [secondByte]

/-- The two bytes of a word hold the word (20_memory.md R64). -/
@[simp] theorem wordOfBytes_bytes (w : Word) : wordOfBytes (firstByte w) (secondByte w) = w := by
  apply BitVec.eq_of_toNat_eq
  rw [toNat_wordOfBytes, toNat_firstByte, toNat_secondByte]
  omega

/-- The decoder on a byte list reads the word its first two bytes hold. -/
theorem decode_cons_cons (a b : Byte) (rest : List Byte) :
    decode (a :: b :: rest) = .ok (decodeWord (wordOfBytes a b), rest) := rfl

/-- The host's reading of a table word is the decoder on that word. -/
theorem decodeTableWord_eq (nbits w : Nat) : decodeTableWord nbits w = some (decodeWord (tableWord nbits w)) := by
  simp [decodeTableWord, decode_cons_cons]

end Sys2Proof
end

