-- ==== Sys2Proof/Laws/Memory.lean ====
section
/-! SUPPORT. Memory: a read after a write, the canonical form kept by every operation, and that canonical memories which read
the same are the same list. -/

namespace Sys2Proof.Machine

/-! ## The bounds check -/

/-- The bounds check in numbers (20_memory.md R62). -/
theorem runInRange_iff (a n : Nat) : runInRange a n = true ↔ n = 0 ∨ a + n ≤ 4096 := by
  simp [runInRange, Config.memSize]

theorem runInRange_false_iff (a n : Nat) : runInRange a n = false ↔ n ≠ 0 ∧ 4096 < a + n := by
  simp [runInRange, Config.memSize]

/-! ## Reading after writing -/

@[simp] theorem Memory.read_nil (a : Nat) : Memory.read [] a = Memory.unlisted := rfl

theorem Memory.unlisted_eq : Memory.unlisted = 0x00#8 := rfl

/-- A list whose addresses all lie at `low` or above reads as unlisted below `low`. -/
theorem Memory.read_below {low : Nat} {m : Memory} (h : m.wfFrom low = true) {a : Nat} (ha : a < low) :
    m.read a = 0x00#8 := by
  induction m generalizing low with
  | nil => rfl
  | cons c m ih =>
    obtain ⟨b, v⟩ := c
    simp only [Memory.wfFrom, Bool.and_eq_true, decide_eq_true_eq] at h
    have hne : a ≠ b := by omega
    simpa [Memory.read, hne] using ih h.2 (by omega)

/-- A canonical list stays canonical from any lower bound. -/
theorem Memory.wfFrom_mono {low low' : Nat} {m : Memory} (h : m.wfFrom low = true) (hle : low' ≤ low) :
    m.wfFrom low' = true := by
  cases m with
  | nil => rfl
  | cons c m =>
    obtain ⟨b, v⟩ := c
    simp only [Memory.wfFrom, Bool.and_eq_true, decide_eq_true_eq] at h ⊢
    exact ⟨⟨⟨by omega, h.1.1.2⟩, h.1.2⟩, h.2⟩

/-- A write to an existing address keeps the canonical form. -/
theorem Memory.wfFrom_write {low a : Nat} {m : Memory} (v : Byte) (h : m.wfFrom low = true) (hlow : low ≤ a)
    (ha : a < 4096) : (m.write a v).wfFrom low = true := by
  induction m generalizing low with
  | nil =>
    by_cases hv : v = Memory.unlisted <;> simp [Memory.write, Memory.wfFrom, Config.memSize, hv, hlow, ha]
  | cons c m ih =>
    obtain ⟨b, u⟩ := c
    have h' := h
    simp only [Memory.wfFrom, Bool.and_eq_true, decide_eq_true_eq] at h'
    obtain ⟨⟨⟨hb, hbm⟩, hu⟩, hm⟩ := h'
    unfold Memory.write
    by_cases hab : a < b
    · by_cases hv : v = Memory.unlisted
      · simpa [hab, hv] using h
      · have hab' : a + 1 ≤ b := hab
        simp [hab, hv, Memory.wfFrom, Config.memSize, hlow, ha, hab', hu, hm]
        simpa [Config.memSize] using hbm
    · by_cases heq : a = b
      · subst heq
        by_cases hv : v = Memory.unlisted
        · simpa [hv] using Memory.wfFrom_mono hm (by omega)
        · simp [hv, Memory.wfFrom, hb, hbm, hm]
      · have := ih hm (by omega)
        simp [hab, heq, Memory.wfFrom, hb, hbm, hu, this]

theorem Memory.wf_write {m : Memory} (a : Nat) (v : Byte) (h : m.wf = true) (ha : a < 4096) : (m.write a v).wf = true :=
  Memory.wfFrom_write v h (Nat.zero_le a) ha

/-- A write leaves every other byte alone, whatever the list. -/
theorem Memory.read_write_ne (m : Memory) {a b : Nat} (v : Byte) (hb : b ≠ a) : (m.write a v).read b = m.read b := by
  induction m with
  | nil => by_cases hv : v = Memory.unlisted <;> simp [Memory.write, Memory.read, hv, hb]
  | cons c m ih =>
    obtain ⟨d, u⟩ := c
    unfold Memory.write
    by_cases had : a < d
    · by_cases hv : v = Memory.unlisted <;> simp [had, hv, Memory.read, hb]
    · by_cases heq : a = d
      · subst heq
        by_cases hv : v = Memory.unlisted <;> simp [hv, Memory.read, hb]
      · by_cases hbd : b = d <;> simp [had, heq, hbd, Memory.read, ih]

/-- A byte after a write: the value written at that address, what it was at every other. -/
theorem Memory.read_write_from {low : Nat} {m : Memory} (h : m.wfFrom low = true) (a b : Nat) (v : Byte) :
    (m.write a v).read b = if b = a then v else m.read b := by
  induction m generalizing low with
  | nil =>
    by_cases hv : v = Memory.unlisted <;> by_cases hb : b = a <;> simp [Memory.write, Memory.read, hv, hb]
  | cons c m ih =>
    obtain ⟨d, u⟩ := c
    simp only [Memory.wfFrom, Bool.and_eq_true, decide_eq_true_eq] at h
    obtain ⟨⟨⟨hd, hdm⟩, hu⟩, hm⟩ := h
    unfold Memory.write
    by_cases had : a < d
    · by_cases hv : v = Memory.unlisted
      · by_cases hb : b = a
        · subst hb
          have hne : b ≠ d := by omega
          simp only [had, hv, if_true, Memory.read, hne, if_false]
          rw [Memory.read_below hm (by omega)]
          rfl
        · simp [had, hv, hb]
      · simp [had, hv, Memory.read]
    · by_cases heq : a = d
      · subst heq
        by_cases hv : v = Memory.unlisted
        · by_cases hb : b = a
          · subst hb
            simp only [lt_irrefl, if_false, if_true, hv]
            rw [Memory.read_below hm (by omega)]
            rfl
          · simp [hv, hb, Memory.read]
        · by_cases hb : b = a <;> simp [hv, hb, Memory.read]
      · by_cases hb : b = a
        · subst hb
          simp [had, heq, Memory.read, ih hm]
        · by_cases hbd : b = d <;> simp [had, heq, hb, hbd, Memory.read, ih hm]
          intro hda
          exact absurd hda.symm heq

theorem Memory.read_write {m : Memory} (h : m.wf = true) (a b : Nat) (v : Byte) :
    (m.write a v).read b = if b = a then v else m.read b := Memory.read_write_from h a b v

/-! ## Runs of bytes -/

theorem Memory.wf_writeRun {m : Memory} (a : Nat) (vs : List Byte) (h : m.wf = true) (ha : a + vs.length ≤ 4096) :
    (m.writeRun a vs).wf = true := by
  induction vs generalizing m a with
  | nil => exact h
  | cons v vs ih =>
    simp only [List.length_cons] at ha
    exact ih (a + 1) (Memory.wf_write a v h (by omega)) (by omega)

/-- A run in range keeps the canonical form, the empty run included. -/
theorem Memory.wf_writeRun_of_inRange {m : Memory} (a : Nat) (vs : List Byte) (h : m.wf = true)
    (hr : runInRange a vs.length = true) : (m.writeRun a vs).wf = true := by
  cases vs with
  | nil => exact h
  | cons v vs =>
    rw [runInRange_iff] at hr
    exact Memory.wf_writeRun a (v :: vs) h (by simpa using hr)

/-- A byte after a run of writes in range: inside the run the byte written there, outside what it was. -/
theorem Memory.read_writeRun {m : Memory} (a : Nat) (vs : List Byte) (h : m.wf = true) (ha : a + vs.length ≤ 4096)
    (b : Nat) : (m.writeRun a vs).read b = if a ≤ b then vs.getD (b - a) (m.read b) else m.read b := by
  induction vs generalizing m a with
  | nil => simp [Memory.writeRun]
  | cons v vs ih =>
    simp only [List.length_cons] at ha
    have hw := Memory.wf_write a v h (by omega)
    rw [Memory.writeRun, ih (a + 1) hw (by omega), Memory.read_write h]
    by_cases hab : a ≤ b
    · by_cases heq : b = a
      · subst heq; simp
      · have h1 : a + 1 ≤ b := by omega
        have h2 : b - a = (b - (a + 1)) + 1 := by omega
        simp [hab, heq, h1, h2]
    · have h1 : ¬ a + 1 ≤ b := by omega
      have h2 : b ≠ a := by omega
      simp [hab, h1, h2]

/-- A run of writes leaves every byte outside it alone, whatever the list. -/
theorem Memory.read_writeRun_outside (m : Memory) (a : Nat) (vs : List Byte) (b : Nat)
    (hb : b < a ∨ a + vs.length ≤ b) : (m.writeRun a vs).read b = m.read b := by
  induction vs generalizing m a with
  | nil => rfl
  | cons v vs ih =>
    simp only [List.length_cons] at hb
    rw [Memory.writeRun, ih (m.write a v) (a + 1) (by omega), Memory.read_write_ne m v (by omega)]

theorem Memory.read_writeRun_inside {m : Memory} (a : Nat) (vs : List Byte) (h : m.wf = true)
    (ha : a + vs.length ≤ 4096) (k : Nat) (hk : k < vs.length) : (m.writeRun a vs).read (a + k) = vs[k] := by
  rw [Memory.read_writeRun a vs h ha]
  simp [hk]

/-! ## Equal memories are equal data -/

theorem Memory.eq_of_read_from {low : Nat} {m m' : Memory} (h : m.wfFrom low = true) (h' : m'.wfFrom low = true)
    (hr : ∀ a, m.read a = m'.read a) : m = m' := by
  induction m generalizing low m' with
  | nil =>
    cases m' with
    | nil => rfl
    | cons c m' =>
      obtain ⟨b, v⟩ := c
      have hb := hr b
      simp only [Memory.wfFrom, Bool.and_eq_true, decide_eq_true_eq] at h'
      simp only [Memory.read, if_true] at hb
      exact absurd hb.symm h'.1.2
  | cons c m ih =>
    obtain ⟨b, v⟩ := c
    have hc := h
    simp only [Memory.wfFrom, Bool.and_eq_true, decide_eq_true_eq] at h
    cases m' with
    | nil =>
      have hb := hr b
      simp only [Memory.read, if_true] at hb
      exact absurd hb h.1.2
    | cons c' m' =>
      obtain ⟨b', v'⟩ := c'
      have hc' := h'
      simp only [Memory.wfFrom, Bool.and_eq_true, decide_eq_true_eq] at h'
      have hbb : b = b' := by
        rcases Nat.lt_trichotomy b b' with hlt | heq | hgt
        · have hb := hr b
          have hne : b ≠ b' := by omega
          simp only [Memory.read, if_true, hne, if_false] at hb
          rw [Memory.read_below h'.2 (by omega)] at hb
          exact absurd hb h.1.2
        · exact heq
        · have hb := hr b'
          have hne : b' ≠ b := by omega
          simp only [Memory.read, if_true, hne, if_false] at hb
          rw [Memory.read_below h.2 (by omega)] at hb
          exact absurd hb.symm h'.1.2
      subst hbb
      have hv := hr b
      simp only [Memory.read, if_true] at hv
      subst hv
      have htail : m = m' := by
        refine ih h.2 h'.2 fun a => ?_
        by_cases ha : a = b
        · subst ha
          rw [Memory.read_below h.2 (by omega), Memory.read_below h'.2 (by omega)]
        · have := hr a
          simpa [Memory.read, ha] using this
      rw [htail]

/-- Canonical memories that read the same at every address are the same list. -/
theorem Memory.eq_of_read {m m' : Memory} (h : m.wf = true) (h' : m'.wf = true) (hr : ∀ a, m.read a = m'.read a) :
    m = m' := Memory.eq_of_read_from h h' hr

/-- No byte above the last address is ever listed. -/
theorem Memory.read_above {m : Memory} (h : m.wf = true) {a : Nat} (ha : 4096 ≤ a) : m.read a = 0x00#8 := by
  suffices key : ∀ low, m.wfFrom low = true → m.read a = 0x00#8 from key 0 h
  clear h
  intro low h
  induction m generalizing low with
  | nil => rfl
  | cons c m ih =>
    obtain ⟨b, v⟩ := c
    simp only [Memory.wfFrom, Bool.and_eq_true, decide_eq_true_eq, Config.memSize] at h
    have hne : a ≠ b := by omega
    simpa [Memory.read, hne] using ih _ h.2

end Sys2Proof.Machine
end

