-- ==== Sys2Proof/Laws/State.lean ====
section
/-! SUPPORT. One lemma per field per named update of State, each true by definition, so that no proof unfolds a record update;
and the reading of a register after a register was written. -/

namespace Sys2Proof.Machine

/-! ## setReg -/

@[simp] theorem State.setReg_regs (s : State) (x : RegIdx) (v : Byte) : (s.setReg x v).regs = s.regs.set x.val v := rfl
@[simp] theorem State.setReg_idx (s : State) (x : RegIdx) (v : Byte) : (s.setReg x v).idx = s.idx := rfl
@[simp] theorem State.setReg_pc (s : State) (x : RegIdx) (v : Byte) : (s.setReg x v).pc = s.pc := rfl
@[simp] theorem State.setReg_stack (s : State) (x : RegIdx) (v : Byte) : (s.setReg x v).stack = s.stack := rfl
@[simp] theorem State.setReg_sp (s : State) (x : RegIdx) (v : Byte) : (s.setReg x v).sp = s.sp := rfl
@[simp] theorem State.setReg_dt (s : State) (x : RegIdx) (v : Byte) : (s.setReg x v).dt = s.dt := rfl
@[simp] theorem State.setReg_st (s : State) (x : RegIdx) (v : Byte) : (s.setReg x v).st = s.st := rfl
@[simp] theorem State.setReg_fb (s : State) (x : RegIdx) (v : Byte) : (s.setReg x v).fb = s.fb := rfl
@[simp] theorem State.setReg_mem (s : State) (x : RegIdx) (v : Byte) : (s.setReg x v).mem = s.mem := rfl
@[simp] theorem State.setReg_fault (s : State) (x : RegIdx) (v : Byte) : (s.setReg x v).fault = s.fault := rfl
@[simp] theorem State.setReg_keys (s : State) (x : RegIdx) (v : Byte) : (s.setReg x v).keys = s.keys := rfl
@[simp] theorem State.setReg_press (s : State) (x : RegIdx) (v : Byte) : (s.setReg x v).press = s.press := rfl
@[simp] theorem State.setReg_pending (s : State) (x : RegIdx) (v : Byte) : (s.setReg x v).pending = s.pending := rfl
@[simp] theorem State.setReg_started (s : State) (x : RegIdx) (v : Byte) : (s.setReg x v).started = s.started := rfl
@[simp] theorem State.setReg_reply (s : State) (x : RegIdx) (v : Byte) : (s.setReg x v).reply = s.reply := rfl

/-! ## setIdx -/

@[simp] theorem State.setIdx_regs (s : State) (v : Word) : (s.setIdx v).regs = s.regs := rfl
@[simp] theorem State.setIdx_idx (s : State) (v : Word) : (s.setIdx v).idx = v := rfl
@[simp] theorem State.setIdx_pc (s : State) (v : Word) : (s.setIdx v).pc = s.pc := rfl
@[simp] theorem State.setIdx_stack (s : State) (v : Word) : (s.setIdx v).stack = s.stack := rfl
@[simp] theorem State.setIdx_sp (s : State) (v : Word) : (s.setIdx v).sp = s.sp := rfl
@[simp] theorem State.setIdx_dt (s : State) (v : Word) : (s.setIdx v).dt = s.dt := rfl
@[simp] theorem State.setIdx_st (s : State) (v : Word) : (s.setIdx v).st = s.st := rfl
@[simp] theorem State.setIdx_fb (s : State) (v : Word) : (s.setIdx v).fb = s.fb := rfl
@[simp] theorem State.setIdx_mem (s : State) (v : Word) : (s.setIdx v).mem = s.mem := rfl
@[simp] theorem State.setIdx_fault (s : State) (v : Word) : (s.setIdx v).fault = s.fault := rfl
@[simp] theorem State.setIdx_keys (s : State) (v : Word) : (s.setIdx v).keys = s.keys := rfl
@[simp] theorem State.setIdx_press (s : State) (v : Word) : (s.setIdx v).press = s.press := rfl
@[simp] theorem State.setIdx_pending (s : State) (v : Word) : (s.setIdx v).pending = s.pending := rfl
@[simp] theorem State.setIdx_started (s : State) (v : Word) : (s.setIdx v).started = s.started := rfl
@[simp] theorem State.setIdx_reply (s : State) (v : Word) : (s.setIdx v).reply = s.reply := rfl

/-! ## setDt -/

@[simp] theorem State.setDt_regs (s : State) (v : Byte) : (s.setDt v).regs = s.regs := rfl
@[simp] theorem State.setDt_idx (s : State) (v : Byte) : (s.setDt v).idx = s.idx := rfl
@[simp] theorem State.setDt_pc (s : State) (v : Byte) : (s.setDt v).pc = s.pc := rfl
@[simp] theorem State.setDt_stack (s : State) (v : Byte) : (s.setDt v).stack = s.stack := rfl
@[simp] theorem State.setDt_sp (s : State) (v : Byte) : (s.setDt v).sp = s.sp := rfl
@[simp] theorem State.setDt_dt (s : State) (v : Byte) : (s.setDt v).dt = v := rfl
@[simp] theorem State.setDt_st (s : State) (v : Byte) : (s.setDt v).st = s.st := rfl
@[simp] theorem State.setDt_fb (s : State) (v : Byte) : (s.setDt v).fb = s.fb := rfl
@[simp] theorem State.setDt_mem (s : State) (v : Byte) : (s.setDt v).mem = s.mem := rfl
@[simp] theorem State.setDt_fault (s : State) (v : Byte) : (s.setDt v).fault = s.fault := rfl
@[simp] theorem State.setDt_keys (s : State) (v : Byte) : (s.setDt v).keys = s.keys := rfl
@[simp] theorem State.setDt_press (s : State) (v : Byte) : (s.setDt v).press = s.press := rfl
@[simp] theorem State.setDt_pending (s : State) (v : Byte) : (s.setDt v).pending = s.pending := rfl
@[simp] theorem State.setDt_started (s : State) (v : Byte) : (s.setDt v).started = s.started := rfl
@[simp] theorem State.setDt_reply (s : State) (v : Byte) : (s.setDt v).reply = s.reply := rfl

/-! ## setSt -/

@[simp] theorem State.setSt_regs (s : State) (v : Byte) : (s.setSt v).regs = s.regs := rfl
@[simp] theorem State.setSt_idx (s : State) (v : Byte) : (s.setSt v).idx = s.idx := rfl
@[simp] theorem State.setSt_pc (s : State) (v : Byte) : (s.setSt v).pc = s.pc := rfl
@[simp] theorem State.setSt_stack (s : State) (v : Byte) : (s.setSt v).stack = s.stack := rfl
@[simp] theorem State.setSt_sp (s : State) (v : Byte) : (s.setSt v).sp = s.sp := rfl
@[simp] theorem State.setSt_dt (s : State) (v : Byte) : (s.setSt v).dt = s.dt := rfl
@[simp] theorem State.setSt_st (s : State) (v : Byte) : (s.setSt v).st = v := rfl
@[simp] theorem State.setSt_fb (s : State) (v : Byte) : (s.setSt v).fb = s.fb := rfl
@[simp] theorem State.setSt_mem (s : State) (v : Byte) : (s.setSt v).mem = s.mem := rfl
@[simp] theorem State.setSt_fault (s : State) (v : Byte) : (s.setSt v).fault = s.fault := rfl
@[simp] theorem State.setSt_keys (s : State) (v : Byte) : (s.setSt v).keys = s.keys := rfl
@[simp] theorem State.setSt_press (s : State) (v : Byte) : (s.setSt v).press = s.press := rfl
@[simp] theorem State.setSt_pending (s : State) (v : Byte) : (s.setSt v).pending = s.pending := rfl
@[simp] theorem State.setSt_started (s : State) (v : Byte) : (s.setSt v).started = s.started := rfl
@[simp] theorem State.setSt_reply (s : State) (v : Byte) : (s.setSt v).reply = s.reply := rfl

/-! ## setMem -/

@[simp] theorem State.setMem_regs (s : State) (m : Memory) : (s.setMem m).regs = s.regs := rfl
@[simp] theorem State.setMem_idx (s : State) (m : Memory) : (s.setMem m).idx = s.idx := rfl
@[simp] theorem State.setMem_pc (s : State) (m : Memory) : (s.setMem m).pc = s.pc := rfl
@[simp] theorem State.setMem_stack (s : State) (m : Memory) : (s.setMem m).stack = s.stack := rfl
@[simp] theorem State.setMem_sp (s : State) (m : Memory) : (s.setMem m).sp = s.sp := rfl
@[simp] theorem State.setMem_dt (s : State) (m : Memory) : (s.setMem m).dt = s.dt := rfl
@[simp] theorem State.setMem_st (s : State) (m : Memory) : (s.setMem m).st = s.st := rfl
@[simp] theorem State.setMem_fb (s : State) (m : Memory) : (s.setMem m).fb = s.fb := rfl
@[simp] theorem State.setMem_mem (s : State) (m : Memory) : (s.setMem m).mem = m := rfl
@[simp] theorem State.setMem_fault (s : State) (m : Memory) : (s.setMem m).fault = s.fault := rfl
@[simp] theorem State.setMem_keys (s : State) (m : Memory) : (s.setMem m).keys = s.keys := rfl
@[simp] theorem State.setMem_press (s : State) (m : Memory) : (s.setMem m).press = s.press := rfl
@[simp] theorem State.setMem_pending (s : State) (m : Memory) : (s.setMem m).pending = s.pending := rfl
@[simp] theorem State.setMem_started (s : State) (m : Memory) : (s.setMem m).started = s.started := rfl
@[simp] theorem State.setMem_reply (s : State) (m : Memory) : (s.setMem m).reply = s.reply := rfl

/-! ## setFb -/

@[simp] theorem State.setFb_regs (s : State) (fb : Framebuffer) : (s.setFb fb).regs = s.regs := rfl
@[simp] theorem State.setFb_idx (s : State) (fb : Framebuffer) : (s.setFb fb).idx = s.idx := rfl
@[simp] theorem State.setFb_pc (s : State) (fb : Framebuffer) : (s.setFb fb).pc = s.pc := rfl
@[simp] theorem State.setFb_stack (s : State) (fb : Framebuffer) : (s.setFb fb).stack = s.stack := rfl
@[simp] theorem State.setFb_sp (s : State) (fb : Framebuffer) : (s.setFb fb).sp = s.sp := rfl
@[simp] theorem State.setFb_dt (s : State) (fb : Framebuffer) : (s.setFb fb).dt = s.dt := rfl
@[simp] theorem State.setFb_st (s : State) (fb : Framebuffer) : (s.setFb fb).st = s.st := rfl
@[simp] theorem State.setFb_fb (s : State) (fb : Framebuffer) : (s.setFb fb).fb = fb := rfl
@[simp] theorem State.setFb_mem (s : State) (fb : Framebuffer) : (s.setFb fb).mem = s.mem := rfl
@[simp] theorem State.setFb_fault (s : State) (fb : Framebuffer) : (s.setFb fb).fault = s.fault := rfl
@[simp] theorem State.setFb_keys (s : State) (fb : Framebuffer) : (s.setFb fb).keys = s.keys := rfl
@[simp] theorem State.setFb_press (s : State) (fb : Framebuffer) : (s.setFb fb).press = s.press := rfl
@[simp] theorem State.setFb_pending (s : State) (fb : Framebuffer) : (s.setFb fb).pending = s.pending := rfl
@[simp] theorem State.setFb_started (s : State) (fb : Framebuffer) : (s.setFb fb).started = s.started := rfl
@[simp] theorem State.setFb_reply (s : State) (fb : Framebuffer) : (s.setFb fb).reply = s.reply := rfl

/-! ## push -/

@[simp] theorem State.push_regs (s : State) (v : Word) (h : s.sp.val < Config.stackDepth) : (s.push v h).regs = s.regs := rfl
@[simp] theorem State.push_idx (s : State) (v : Word) (h : s.sp.val < Config.stackDepth) : (s.push v h).idx = s.idx := rfl
@[simp] theorem State.push_pc (s : State) (v : Word) (h : s.sp.val < Config.stackDepth) : (s.push v h).pc = s.pc := rfl
@[simp] theorem State.push_stack (s : State) (v : Word) (h : s.sp.val < Config.stackDepth) : (s.push v h).stack = s.stack.set s.sp.val v := rfl
@[simp] theorem State.push_sp (s : State) (v : Word) (h : s.sp.val < Config.stackDepth) : (s.push v h).sp = ⟨s.sp.val + 1, Nat.succ_lt_succ h⟩ := rfl
@[simp] theorem State.push_dt (s : State) (v : Word) (h : s.sp.val < Config.stackDepth) : (s.push v h).dt = s.dt := rfl
@[simp] theorem State.push_st (s : State) (v : Word) (h : s.sp.val < Config.stackDepth) : (s.push v h).st = s.st := rfl
@[simp] theorem State.push_fb (s : State) (v : Word) (h : s.sp.val < Config.stackDepth) : (s.push v h).fb = s.fb := rfl
@[simp] theorem State.push_mem (s : State) (v : Word) (h : s.sp.val < Config.stackDepth) : (s.push v h).mem = s.mem := rfl
@[simp] theorem State.push_fault (s : State) (v : Word) (h : s.sp.val < Config.stackDepth) : (s.push v h).fault = s.fault := rfl
@[simp] theorem State.push_keys (s : State) (v : Word) (h : s.sp.val < Config.stackDepth) : (s.push v h).keys = s.keys := rfl
@[simp] theorem State.push_press (s : State) (v : Word) (h : s.sp.val < Config.stackDepth) : (s.push v h).press = s.press := rfl
@[simp] theorem State.push_pending (s : State) (v : Word) (h : s.sp.val < Config.stackDepth) : (s.push v h).pending = s.pending := rfl
@[simp] theorem State.push_started (s : State) (v : Word) (h : s.sp.val < Config.stackDepth) : (s.push v h).started = s.started := rfl
@[simp] theorem State.push_reply (s : State) (v : Word) (h : s.sp.val < Config.stackDepth) : (s.push v h).reply = s.reply := rfl

/-! ## pop -/

@[simp] theorem State.pop_regs (s : State) : (s.pop).regs = s.regs := rfl
@[simp] theorem State.pop_idx (s : State) : (s.pop).idx = s.idx := rfl
@[simp] theorem State.pop_pc (s : State) : (s.pop).pc = s.pc := rfl
@[simp] theorem State.pop_stack (s : State) : (s.pop).stack = s.stack := rfl
@[simp] theorem State.pop_sp (s : State) : (s.pop).sp = ⟨s.sp.val - 1, Nat.lt_of_le_of_lt (Nat.sub_le _ _) s.sp.isLt⟩ := rfl
@[simp] theorem State.pop_dt (s : State) : (s.pop).dt = s.dt := rfl
@[simp] theorem State.pop_st (s : State) : (s.pop).st = s.st := rfl
@[simp] theorem State.pop_fb (s : State) : (s.pop).fb = s.fb := rfl
@[simp] theorem State.pop_mem (s : State) : (s.pop).mem = s.mem := rfl
@[simp] theorem State.pop_fault (s : State) : (s.pop).fault = s.fault := rfl
@[simp] theorem State.pop_keys (s : State) : (s.pop).keys = s.keys := rfl
@[simp] theorem State.pop_press (s : State) : (s.pop).press = s.press := rfl
@[simp] theorem State.pop_pending (s : State) : (s.pop).pending = s.pending := rfl
@[simp] theorem State.pop_started (s : State) : (s.pop).started = s.started := rfl
@[simp] theorem State.pop_reply (s : State) : (s.pop).reply = s.reply := rfl

/-! ## tick -/

@[simp] theorem State.tick_regs (s : State) : (s.tick).regs = s.regs := rfl
@[simp] theorem State.tick_idx (s : State) : (s.tick).idx = s.idx := rfl
@[simp] theorem State.tick_pc (s : State) : (s.tick).pc = s.pc := rfl
@[simp] theorem State.tick_stack (s : State) : (s.tick).stack = s.stack := rfl
@[simp] theorem State.tick_sp (s : State) : (s.tick).sp = s.sp := rfl
@[simp] theorem State.tick_dt (s : State) : (s.tick).dt = countDown s.dt := rfl
@[simp] theorem State.tick_st (s : State) : (s.tick).st = countDown s.st := rfl
@[simp] theorem State.tick_fb (s : State) : (s.tick).fb = s.fb := rfl
@[simp] theorem State.tick_mem (s : State) : (s.tick).mem = s.mem := rfl
@[simp] theorem State.tick_fault (s : State) : (s.tick).fault = s.fault := rfl
@[simp] theorem State.tick_keys (s : State) : (s.tick).keys = s.keys := rfl
@[simp] theorem State.tick_press (s : State) : (s.tick).press = s.press := rfl
@[simp] theorem State.tick_pending (s : State) : (s.tick).pending = s.pending := rfl
@[simp] theorem State.tick_started (s : State) : (s.tick).started = s.started := rfl
@[simp] theorem State.tick_reply (s : State) : (s.tick).reply = s.reply := rfl

/-! ## endCycle -/

@[simp] theorem State.endCycle_regs (s : State) : (s.endCycle).regs = s.regs := rfl
@[simp] theorem State.endCycle_idx (s : State) : (s.endCycle).idx = s.idx := rfl
@[simp] theorem State.endCycle_pc (s : State) : (s.endCycle).pc = s.pc := rfl
@[simp] theorem State.endCycle_stack (s : State) : (s.endCycle).stack = s.stack := rfl
@[simp] theorem State.endCycle_sp (s : State) : (s.endCycle).sp = s.sp := rfl
@[simp] theorem State.endCycle_dt (s : State) : (s.endCycle).dt = s.dt := rfl
@[simp] theorem State.endCycle_st (s : State) : (s.endCycle).st = s.st := rfl
@[simp] theorem State.endCycle_fb (s : State) : (s.endCycle).fb = s.fb := rfl
@[simp] theorem State.endCycle_mem (s : State) : (s.endCycle).mem = s.mem := rfl
@[simp] theorem State.endCycle_fault (s : State) : (s.endCycle).fault = s.fault := rfl
@[simp] theorem State.endCycle_keys (s : State) : (s.endCycle).keys = s.keys := rfl
@[simp] theorem State.endCycle_press (s : State) : (s.endCycle).press = none := rfl
@[simp] theorem State.endCycle_pending (s : State) : (s.endCycle).pending = s.pending := rfl
@[simp] theorem State.endCycle_started (s : State) : (s.endCycle).started = true := rfl
@[simp] theorem State.endCycle_reply (s : State) : (s.endCycle).reply = s.reply := rfl

/-! ## dropRequest -/

@[simp] theorem State.dropRequest_regs (s : State) : (s.dropRequest).regs = s.regs := rfl
@[simp] theorem State.dropRequest_idx (s : State) : (s.dropRequest).idx = s.idx := rfl
@[simp] theorem State.dropRequest_pc (s : State) : (s.dropRequest).pc = s.pc := rfl
@[simp] theorem State.dropRequest_stack (s : State) : (s.dropRequest).stack = s.stack := rfl
@[simp] theorem State.dropRequest_sp (s : State) : (s.dropRequest).sp = s.sp := rfl
@[simp] theorem State.dropRequest_dt (s : State) : (s.dropRequest).dt = s.dt := rfl
@[simp] theorem State.dropRequest_st (s : State) : (s.dropRequest).st = s.st := rfl
@[simp] theorem State.dropRequest_fb (s : State) : (s.dropRequest).fb = s.fb := rfl
@[simp] theorem State.dropRequest_mem (s : State) : (s.dropRequest).mem = s.mem := rfl
@[simp] theorem State.dropRequest_fault (s : State) : (s.dropRequest).fault = s.fault := rfl
@[simp] theorem State.dropRequest_keys (s : State) : (s.dropRequest).keys = s.keys := rfl
@[simp] theorem State.dropRequest_press (s : State) : (s.dropRequest).press = s.press := rfl
@[simp] theorem State.dropRequest_pending (s : State) : (s.dropRequest).pending = s.pending.tail := rfl
@[simp] theorem State.dropRequest_started (s : State) : (s.dropRequest).started = s.started := rfl
@[simp] theorem State.dropRequest_reply (s : State) : (s.dropRequest).reply = s.reply := rfl

/-! ## setFlag -/

@[simp] theorem State.setFlag_regs (s : State) (v : Byte) : (s.setFlag v).regs = s.regs.set (15 : RegIdx).val v := rfl
@[simp] theorem State.setFlag_idx (s : State) (v : Byte) : (s.setFlag v).idx = s.idx := rfl
@[simp] theorem State.setFlag_pc (s : State) (v : Byte) : (s.setFlag v).pc = s.pc := rfl
@[simp] theorem State.setFlag_stack (s : State) (v : Byte) : (s.setFlag v).stack = s.stack := rfl
@[simp] theorem State.setFlag_sp (s : State) (v : Byte) : (s.setFlag v).sp = s.sp := rfl
@[simp] theorem State.setFlag_dt (s : State) (v : Byte) : (s.setFlag v).dt = s.dt := rfl
@[simp] theorem State.setFlag_st (s : State) (v : Byte) : (s.setFlag v).st = s.st := rfl
@[simp] theorem State.setFlag_fb (s : State) (v : Byte) : (s.setFlag v).fb = s.fb := rfl
@[simp] theorem State.setFlag_mem (s : State) (v : Byte) : (s.setFlag v).mem = s.mem := rfl
@[simp] theorem State.setFlag_fault (s : State) (v : Byte) : (s.setFlag v).fault = s.fault := rfl
@[simp] theorem State.setFlag_keys (s : State) (v : Byte) : (s.setFlag v).keys = s.keys := rfl
@[simp] theorem State.setFlag_press (s : State) (v : Byte) : (s.setFlag v).press = s.press := rfl
@[simp] theorem State.setFlag_pending (s : State) (v : Byte) : (s.setFlag v).pending = s.pending := rfl
@[simp] theorem State.setFlag_started (s : State) (v : Byte) : (s.setFlag v).started = s.started := rfl
@[simp] theorem State.setFlag_reply (s : State) (v : Byte) : (s.setFlag v).reply = s.reply := rfl

/-! ## setRegs -/

@[simp] theorem State.setRegs_regs (s : State) (regs : Vector Byte 16) : (s.setRegs regs).regs = regs := rfl
@[simp] theorem State.setRegs_idx (s : State) (regs : Vector Byte 16) : (s.setRegs regs).idx = s.idx := rfl
@[simp] theorem State.setRegs_pc (s : State) (regs : Vector Byte 16) : (s.setRegs regs).pc = s.pc := rfl
@[simp] theorem State.setRegs_stack (s : State) (regs : Vector Byte 16) : (s.setRegs regs).stack = s.stack := rfl
@[simp] theorem State.setRegs_sp (s : State) (regs : Vector Byte 16) : (s.setRegs regs).sp = s.sp := rfl
@[simp] theorem State.setRegs_dt (s : State) (regs : Vector Byte 16) : (s.setRegs regs).dt = s.dt := rfl
@[simp] theorem State.setRegs_st (s : State) (regs : Vector Byte 16) : (s.setRegs regs).st = s.st := rfl
@[simp] theorem State.setRegs_fb (s : State) (regs : Vector Byte 16) : (s.setRegs regs).fb = s.fb := rfl
@[simp] theorem State.setRegs_mem (s : State) (regs : Vector Byte 16) : (s.setRegs regs).mem = s.mem := rfl
@[simp] theorem State.setRegs_fault (s : State) (regs : Vector Byte 16) : (s.setRegs regs).fault = s.fault := rfl
@[simp] theorem State.setRegs_keys (s : State) (regs : Vector Byte 16) : (s.setRegs regs).keys = s.keys := rfl
@[simp] theorem State.setRegs_press (s : State) (regs : Vector Byte 16) : (s.setRegs regs).press = s.press := rfl
@[simp] theorem State.setRegs_pending (s : State) (regs : Vector Byte 16) : (s.setRegs regs).pending = s.pending := rfl
@[simp] theorem State.setRegs_started (s : State) (regs : Vector Byte 16) : (s.setRegs regs).started = s.started := rfl
@[simp] theorem State.setRegs_reply (s : State) (regs : Vector Byte 16) : (s.setRegs regs).reply = s.reply := rfl

/-! ## setPc -/

@[simp] theorem State.setPc_regs (s : State) (v : Word) : (s.setPc v).regs = s.regs := rfl
@[simp] theorem State.setPc_idx (s : State) (v : Word) : (s.setPc v).idx = s.idx := rfl
@[simp] theorem State.setPc_pc (s : State) (v : Word) : (s.setPc v).pc = v := rfl
@[simp] theorem State.setPc_stack (s : State) (v : Word) : (s.setPc v).stack = s.stack := rfl
@[simp] theorem State.setPc_sp (s : State) (v : Word) : (s.setPc v).sp = s.sp := rfl
@[simp] theorem State.setPc_dt (s : State) (v : Word) : (s.setPc v).dt = s.dt := rfl
@[simp] theorem State.setPc_st (s : State) (v : Word) : (s.setPc v).st = s.st := rfl
@[simp] theorem State.setPc_fb (s : State) (v : Word) : (s.setPc v).fb = s.fb := rfl
@[simp] theorem State.setPc_mem (s : State) (v : Word) : (s.setPc v).mem = s.mem := rfl
@[simp] theorem State.setPc_fault (s : State) (v : Word) : (s.setPc v).fault = s.fault := rfl
@[simp] theorem State.setPc_keys (s : State) (v : Word) : (s.setPc v).keys = s.keys := rfl
@[simp] theorem State.setPc_press (s : State) (v : Word) : (s.setPc v).press = s.press := rfl
@[simp] theorem State.setPc_pending (s : State) (v : Word) : (s.setPc v).pending = s.pending := rfl
@[simp] theorem State.setPc_started (s : State) (v : Word) : (s.setPc v).started = s.started := rfl
@[simp] theorem State.setPc_reply (s : State) (v : Word) : (s.setPc v).reply = s.reply := rfl

/-! ## setFault -/

@[simp] theorem State.setFault_regs (s : State) (f : Option Fault) : (s.setFault f).regs = s.regs := rfl
@[simp] theorem State.setFault_idx (s : State) (f : Option Fault) : (s.setFault f).idx = s.idx := rfl
@[simp] theorem State.setFault_pc (s : State) (f : Option Fault) : (s.setFault f).pc = s.pc := rfl
@[simp] theorem State.setFault_stack (s : State) (f : Option Fault) : (s.setFault f).stack = s.stack := rfl
@[simp] theorem State.setFault_sp (s : State) (f : Option Fault) : (s.setFault f).sp = s.sp := rfl
@[simp] theorem State.setFault_dt (s : State) (f : Option Fault) : (s.setFault f).dt = s.dt := rfl
@[simp] theorem State.setFault_st (s : State) (f : Option Fault) : (s.setFault f).st = s.st := rfl
@[simp] theorem State.setFault_fb (s : State) (f : Option Fault) : (s.setFault f).fb = s.fb := rfl
@[simp] theorem State.setFault_mem (s : State) (f : Option Fault) : (s.setFault f).mem = s.mem := rfl
@[simp] theorem State.setFault_fault (s : State) (f : Option Fault) : (s.setFault f).fault = f := rfl
@[simp] theorem State.setFault_keys (s : State) (f : Option Fault) : (s.setFault f).keys = s.keys := rfl
@[simp] theorem State.setFault_press (s : State) (f : Option Fault) : (s.setFault f).press = s.press := rfl
@[simp] theorem State.setFault_pending (s : State) (f : Option Fault) : (s.setFault f).pending = s.pending := rfl
@[simp] theorem State.setFault_started (s : State) (f : Option Fault) : (s.setFault f).started = s.started := rfl
@[simp] theorem State.setFault_reply (s : State) (f : Option Fault) : (s.setFault f).reply = s.reply := rfl

/-! ## setReply -/

@[simp] theorem State.setReply_regs (s : State) (r : Reply) : (s.setReply r).regs = s.regs := rfl
@[simp] theorem State.setReply_idx (s : State) (r : Reply) : (s.setReply r).idx = s.idx := rfl
@[simp] theorem State.setReply_pc (s : State) (r : Reply) : (s.setReply r).pc = s.pc := rfl
@[simp] theorem State.setReply_stack (s : State) (r : Reply) : (s.setReply r).stack = s.stack := rfl
@[simp] theorem State.setReply_sp (s : State) (r : Reply) : (s.setReply r).sp = s.sp := rfl
@[simp] theorem State.setReply_dt (s : State) (r : Reply) : (s.setReply r).dt = s.dt := rfl
@[simp] theorem State.setReply_st (s : State) (r : Reply) : (s.setReply r).st = s.st := rfl
@[simp] theorem State.setReply_fb (s : State) (r : Reply) : (s.setReply r).fb = s.fb := rfl
@[simp] theorem State.setReply_mem (s : State) (r : Reply) : (s.setReply r).mem = s.mem := rfl
@[simp] theorem State.setReply_fault (s : State) (r : Reply) : (s.setReply r).fault = s.fault := rfl
@[simp] theorem State.setReply_keys (s : State) (r : Reply) : (s.setReply r).keys = s.keys := rfl
@[simp] theorem State.setReply_press (s : State) (r : Reply) : (s.setReply r).press = s.press := rfl
@[simp] theorem State.setReply_pending (s : State) (r : Reply) : (s.setReply r).pending = s.pending := rfl
@[simp] theorem State.setReply_started (s : State) (r : Reply) : (s.setReply r).started = s.started := rfl
@[simp] theorem State.setReply_reply (s : State) (r : Reply) : (s.setReply r).reply = r := rfl

/-! ## setKeys -/

@[simp] theorem State.setKeys_regs (s : State) (keys : Vector Bool 16) : (s.setKeys keys).regs = s.regs := rfl
@[simp] theorem State.setKeys_idx (s : State) (keys : Vector Bool 16) : (s.setKeys keys).idx = s.idx := rfl
@[simp] theorem State.setKeys_pc (s : State) (keys : Vector Bool 16) : (s.setKeys keys).pc = s.pc := rfl
@[simp] theorem State.setKeys_stack (s : State) (keys : Vector Bool 16) : (s.setKeys keys).stack = s.stack := rfl
@[simp] theorem State.setKeys_sp (s : State) (keys : Vector Bool 16) : (s.setKeys keys).sp = s.sp := rfl
@[simp] theorem State.setKeys_dt (s : State) (keys : Vector Bool 16) : (s.setKeys keys).dt = s.dt := rfl
@[simp] theorem State.setKeys_st (s : State) (keys : Vector Bool 16) : (s.setKeys keys).st = s.st := rfl
@[simp] theorem State.setKeys_fb (s : State) (keys : Vector Bool 16) : (s.setKeys keys).fb = s.fb := rfl
@[simp] theorem State.setKeys_mem (s : State) (keys : Vector Bool 16) : (s.setKeys keys).mem = s.mem := rfl
@[simp] theorem State.setKeys_fault (s : State) (keys : Vector Bool 16) : (s.setKeys keys).fault = s.fault := rfl
@[simp] theorem State.setKeys_keys (s : State) (keys : Vector Bool 16) : (s.setKeys keys).keys = keys := rfl
@[simp] theorem State.setKeys_press (s : State) (keys : Vector Bool 16) : (s.setKeys keys).press = s.press := rfl
@[simp] theorem State.setKeys_pending (s : State) (keys : Vector Bool 16) : (s.setKeys keys).pending = s.pending := rfl
@[simp] theorem State.setKeys_started (s : State) (keys : Vector Bool 16) : (s.setKeys keys).started = s.started := rfl
@[simp] theorem State.setKeys_reply (s : State) (keys : Vector Bool 16) : (s.setKeys keys).reply = s.reply := rfl

/-! ## setPress -/

@[simp] theorem State.setPress_regs (s : State) (press : Option Key) : (s.setPress press).regs = s.regs := rfl
@[simp] theorem State.setPress_idx (s : State) (press : Option Key) : (s.setPress press).idx = s.idx := rfl
@[simp] theorem State.setPress_pc (s : State) (press : Option Key) : (s.setPress press).pc = s.pc := rfl
@[simp] theorem State.setPress_stack (s : State) (press : Option Key) : (s.setPress press).stack = s.stack := rfl
@[simp] theorem State.setPress_sp (s : State) (press : Option Key) : (s.setPress press).sp = s.sp := rfl
@[simp] theorem State.setPress_dt (s : State) (press : Option Key) : (s.setPress press).dt = s.dt := rfl
@[simp] theorem State.setPress_st (s : State) (press : Option Key) : (s.setPress press).st = s.st := rfl
@[simp] theorem State.setPress_fb (s : State) (press : Option Key) : (s.setPress press).fb = s.fb := rfl
@[simp] theorem State.setPress_mem (s : State) (press : Option Key) : (s.setPress press).mem = s.mem := rfl
@[simp] theorem State.setPress_fault (s : State) (press : Option Key) : (s.setPress press).fault = s.fault := rfl
@[simp] theorem State.setPress_keys (s : State) (press : Option Key) : (s.setPress press).keys = s.keys := rfl
@[simp] theorem State.setPress_press (s : State) (press : Option Key) : (s.setPress press).press = press := rfl
@[simp] theorem State.setPress_pending (s : State) (press : Option Key) : (s.setPress press).pending = s.pending := rfl
@[simp] theorem State.setPress_started (s : State) (press : Option Key) : (s.setPress press).started = s.started := rfl
@[simp] theorem State.setPress_reply (s : State) (press : Option Key) : (s.setPress press).reply = s.reply := rfl

/-! ## resetCore -/

@[simp] theorem State.resetCore_regs (s : State) : (s.resetCore).regs = State.reset.regs := rfl
@[simp] theorem State.resetCore_idx (s : State) : (s.resetCore).idx = State.reset.idx := rfl
@[simp] theorem State.resetCore_pc (s : State) : (s.resetCore).pc = State.reset.pc := rfl
@[simp] theorem State.resetCore_stack (s : State) : (s.resetCore).stack = State.reset.stack := rfl
@[simp] theorem State.resetCore_sp (s : State) : (s.resetCore).sp = State.reset.sp := rfl
@[simp] theorem State.resetCore_dt (s : State) : (s.resetCore).dt = State.reset.dt := rfl
@[simp] theorem State.resetCore_st (s : State) : (s.resetCore).st = State.reset.st := rfl
@[simp] theorem State.resetCore_fb (s : State) : (s.resetCore).fb = State.reset.fb := rfl
@[simp] theorem State.resetCore_mem (s : State) : (s.resetCore).mem = State.reset.mem := rfl
@[simp] theorem State.resetCore_fault (s : State) : (s.resetCore).fault = State.reset.fault := rfl
@[simp] theorem State.resetCore_keys (s : State) : (s.resetCore).keys = s.keys := rfl
@[simp] theorem State.resetCore_press (s : State) : (s.resetCore).press = s.press := rfl
@[simp] theorem State.resetCore_pending (s : State) : (s.resetCore).pending = s.pending := rfl
@[simp] theorem State.resetCore_started (s : State) : (s.resetCore).started = State.reset.started := rfl
@[simp] theorem State.resetCore_reply (s : State) : (s.resetCore).reply = State.reset.reply := rfl

/-! ## placeWord -/

@[simp] theorem State.placeWord_regs (s : State) (w : Word) : (s.placeWord w).regs = s.regs := rfl
@[simp] theorem State.placeWord_idx (s : State) (w : Word) : (s.placeWord w).idx = s.idx := rfl
@[simp] theorem State.placeWord_pc (s : State) (w : Word) : (s.placeWord w).pc = s.placeAt := rfl
@[simp] theorem State.placeWord_stack (s : State) (w : Word) : (s.placeWord w).stack = s.stack := rfl
@[simp] theorem State.placeWord_sp (s : State) (w : Word) : (s.placeWord w).sp = s.sp := rfl
@[simp] theorem State.placeWord_dt (s : State) (w : Word) : (s.placeWord w).dt = s.dt := rfl
@[simp] theorem State.placeWord_st (s : State) (w : Word) : (s.placeWord w).st = s.st := rfl
@[simp] theorem State.placeWord_fb (s : State) (w : Word) : (s.placeWord w).fb = s.fb := rfl
@[simp] theorem State.placeWord_mem (s : State) (w : Word) : (s.placeWord w).mem = s.mem.writeRun s.placeAt.toNat [firstByte w, secondByte w] := rfl
@[simp] theorem State.placeWord_fault (s : State) (w : Word) : (s.placeWord w).fault = none := rfl
@[simp] theorem State.placeWord_keys (s : State) (w : Word) : (s.placeWord w).keys = s.keys := rfl
@[simp] theorem State.placeWord_press (s : State) (w : Word) : (s.placeWord w).press = s.press := rfl
@[simp] theorem State.placeWord_pending (s : State) (w : Word) : (s.placeWord w).pending = s.cycleFirst := rfl
@[simp] theorem State.placeWord_started (s : State) (w : Word) : (s.placeWord w).started = s.started := rfl
@[simp] theorem State.placeWord_reply (s : State) (w : Word) : (s.placeWord w).reply = s.reply := rfl

/-! ## Reading a register -/

/-- A register after a write is the value written if it is that register, and what it was if not. -/
theorem State.reg_setReg (s : State) (x y : RegIdx) (v : Byte) :
    (s.setReg x v).reg y = if y = x then v else s.reg y := by
  by_cases h : y = x
  · subst h; simp [State.reg]
  · have hne : x.val ≠ y.val := fun e => h (Fin.ext e.symm)
    simp [State.reg, hne, h]

@[simp] theorem State.reg_setReg_same (s : State) (x : RegIdx) (v : Byte) : (s.setReg x v).reg x = v := by
  simp [State.reg_setReg]

theorem State.reg_setReg_ne (s : State) (x y : RegIdx) (v : Byte) (h : y ≠ x) : (s.setReg x v).reg y = s.reg y := by
  simp [State.reg_setReg, h]

/-- Registers are read from `regs` alone. -/
theorem State.reg_eq_of_regs (s t : State) (h : t.regs = s.regs) (x : RegIdx) : t.reg x = s.reg x := by
  simp [State.reg, h]

/-- Register files that read the same everywhere are the same. -/
theorem regs_ext (s t : State) (h : ∀ x : RegIdx, t.reg x = s.reg x) : t.regs = s.regs :=
  Vector.ext fun i hi => h ⟨i, hi⟩

@[simp] theorem State.reg_setIdx (s : State) (v : Word) (x : RegIdx) : (s.setIdx v).reg x = s.reg x := rfl
@[simp] theorem State.reg_setDt (s : State) (v : Byte) (x : RegIdx) : (s.setDt v).reg x = s.reg x := rfl
@[simp] theorem State.reg_setSt (s : State) (v : Byte) (x : RegIdx) : (s.setSt v).reg x = s.reg x := rfl
@[simp] theorem State.reg_setMem (s : State) (m : Memory) (x : RegIdx) : (s.setMem m).reg x = s.reg x := rfl
@[simp] theorem State.reg_setFb (s : State) (fb : Framebuffer) (x : RegIdx) : (s.setFb fb).reg x = s.reg x := rfl
@[simp] theorem State.reg_push (s : State) (v : Word) (h : s.sp.val < Config.stackDepth) (x : RegIdx) : (s.push v h).reg x = s.reg x := rfl
@[simp] theorem State.reg_pop (s : State) (x : RegIdx) : (s.pop).reg x = s.reg x := rfl
@[simp] theorem State.reg_tick (s : State) (x : RegIdx) : (s.tick).reg x = s.reg x := rfl
@[simp] theorem State.reg_endCycle (s : State) (x : RegIdx) : (s.endCycle).reg x = s.reg x := rfl
@[simp] theorem State.reg_dropRequest (s : State) (x : RegIdx) : (s.dropRequest).reg x = s.reg x := rfl
@[simp] theorem State.reg_setPc (s : State) (v : Word) (x : RegIdx) : (s.setPc v).reg x = s.reg x := rfl
@[simp] theorem State.reg_setFault (s : State) (f : Option Fault) (x : RegIdx) : (s.setFault f).reg x = s.reg x := rfl
@[simp] theorem State.reg_setReply (s : State) (r : Reply) (x : RegIdx) : (s.setReply r).reg x = s.reg x := rfl
@[simp] theorem State.reg_setKeys (s : State) (keys : Vector Bool 16) (x : RegIdx) : (s.setKeys keys).reg x = s.reg x := rfl
@[simp] theorem State.reg_setPress (s : State) (press : Option Key) (x : RegIdx) : (s.setPress press).reg x = s.reg x := rfl
@[simp] theorem State.reg_setRegs (s : State) (regs : Vector Byte 16) (x : RegIdx) : (s.setRegs regs).reg x = regs[x.val] := rfl
@[simp] theorem State.reg_setFlag_same (s : State) (v : Byte) : (s.setFlag v).reg 15 = v := State.reg_setReg_same s 15 v
theorem State.reg_setFlag_ne (s : State) (v : Byte) (x : RegIdx) (h : x ≠ 15) : (s.setFlag v).reg x = s.reg x :=
  State.reg_setReg_ne s 15 x v h

end Sys2Proof.Machine
end

