-- ==== Sys2Proof/Laws/Ops.lean ====
section
/-! SUPPORT. One lemma per shared operation that says once everything it can answer. -/

namespace Sys2Proof.Machine

theorem completeAt_next {target : Word} {s t : State} (h : completeAt target s = .next t) :
    t = (s.setPc target).setReply .advanced := by
  simpa [completeAt] using h.symm

theorem advance_eq (s : State) : advance s = .next ((s.setPc (s.pc + 2)).setReply .advanced) := rfl

theorem skipIf_eq (c : Bool) (s : State) :
    skipIf c s = .next ((s.setPc (if c then s.pc + 4 else s.pc + 2)).setReply .advanced) := rfl

theorem block_eq (s : State) : block s = .next (s.setReply .blocked) := rfl

theorem raise_eq (f : Fault) (s : State) : raise f s = .next ((s.setFault (some f)).setReply (.fault f)) := rfl

/-- The two writes of a flag-producing instruction, and the advance (41_alu.md R150). -/
theorem flagThenResult_eq (x : RegIdx) (flag result : Byte) (s : State) :
    flagThenResult x flag result s =
      .next ((((s.setReg 15 flag).setReg x result).setPc (s.pc + 2)).setReply .advanced) := rfl

/-- A checked access in range is its body. -/
theorem withRun_inRange {a n : Nat} {s : State} {body : State → Result} (h : runInRange a n = true) :
    withRun a n s body = body s := by
  simp [withRun, h]

/-- A checked access out of range is OutOfBounds. -/
theorem withRun_outOfRange {a n : Nat} {s : State} {body : State → Result} (h : runInRange a n = false) :
    withRun a n s body = raise .outOfBounds s := by
  simp [withRun, h]

/-- Whether in range or not, what a checked access can answer. -/
theorem withRun_cases (a n : Nat) (s : State) (body : State → Result) :
    (runInRange a n = true ∧ withRun a n s body = body s) ∨
    (runInRange a n = false ∧ withRun a n s body = raise .outOfBounds s) := by
  by_cases h : runInRange a n = true
  · exact .inl ⟨h, withRun_inRange h⟩
  · have h' : runInRange a n = false := by simpa using h
    exact .inr ⟨h', by simp [withRun, h']⟩

/-- The newest entry after a push is the value pushed, and the depth is one more (10_state.md R24). -/
@[simp] theorem State.top_push (s : State) (v : Word) (h : s.sp.val < Config.stackDepth) : (s.push v h).top = v := by
  simp [State.top]

/-- A pop undoes a push's depth (R24). -/
@[simp] theorem State.sp_pop_push (s : State) (v : Word) (h : s.sp.val < Config.stackDepth) :
    (s.push v h).pop.sp = s.sp := by
  simp

/-- The next state of an outcome passed through a function. -/
@[simp] theorem mapNext_next (f : State → State) (s : State) : mapNext f (.next s) = .next (f s) := rfl

/-- The countdown in numbers: truncated subtraction (44_keypad_timers.md R223). -/
theorem toNat_countDown (v : Byte) : (countDown v).toNat = v.toNat - 1 := by
  unfold countDown
  by_cases h : v = 0x00#8
  · simp [h]
  · have hv : v.toNat ≠ 0 := fun e => h (BitVec.eq_of_toNat_eq (by simpa using e))
    have := v.isLt
    simp [h, BitVec.toNat_sub]
    omega

/-- `zext_16(NNN)` keeps the value (30_encoding.md R93). -/
@[simp] theorem toNat_addr16 (nnn : Addr12) : (addr16 nnn).toNat = nnn.toNat := by
  have := nnn.isLt
  simp only [addr16, BitVec.toNat_setWidth]
  omega

end Sys2Proof.Machine
end

