-- ==== Sys2Proof/Laws/Display.lean ====
section
/-! SUPPORT. What the framebuffer's write port and a sprite's drawing do to each pixel: 43_display.md R201, R203. -/

namespace Sys2Proof.Machine

/-- FbXor inverts its pixel and keeps every other (R201). -/
theorem Framebuffer.pixel_toggle (fb : Framebuffer) (x px : Fin Config.fbW) (y py : Fin Config.fbH) :
    (fb.toggle x y).pixel px py = if px = x ∧ py = y then !(fb.pixel px py) else fb.pixel px py := by
  unfold Framebuffer.toggle Framebuffer.pixel
  by_cases hy : py = y
  · subst hy
    by_cases hx : px = x
    · subst hx; simp
    · have : x.val ≠ px.val := fun e => hx (Fin.ext e.symm)
      simp [hx, this]
  · have : y.val ≠ py.val := fun e => hy (Fin.ext e.symm)
    simp [hy, this]

/-- FbClear leaves every pixel 0 (R201). -/
@[simp] theorem Framebuffer.pixel_cleared (px : Fin Config.fbW) (py : Fin Config.fbH) :
    Framebuffer.cleared.pixel px py = false := by
  simp [Framebuffer.cleared, Framebuffer.pixel]

/-- Framebuffers with the same pixels are the same. -/
theorem Framebuffer.ext_pixel {fb fb' : Framebuffer} (h : ∀ px py, fb.pixel px py = fb'.pixel px py) : fb = fb' :=
  Vector.ext fun y hy => Vector.ext fun x hx => h ⟨x, hx⟩ ⟨y, hy⟩

/-! ## One row -/

/-- A pixel of row `y` that one of the first `n` columns of a sprite row lights. -/
def inCols (x0 : Byte) (row : Byte) (n : Nat) (px : Fin Config.fbW) : Prop :=
  ∃ col, col < n ∧ spriteBit row col = true ∧ px = pixelX x0 col

/-- Two columns of one sprite row fall on different pixels (R203: 8 columns are fewer than 64). -/
theorem pixelX_inj (x0 : Byte) {c d : Nat} (hc : c < 64) (hd : d < 64) (h : pixelX x0 c = pixelX x0 d) : c = d := by
  have h' := congrArg Fin.val h
  simp only [pixelX, Config.fbW] at h'
  omega

/-- Two rows of one sprite fall on different rows of the screen (R203: at most 15 rows are fewer than 32). -/
theorem pixelY_inj (y0 : Byte) {c d : Nat} (hc : c < 32) (hd : d < 32) (h : pixelY y0 c = pixelY y0 d) : c = d := by
  have h' := congrArg Fin.val h
  simp only [pixelY, Config.fbH] at h'
  omega

/-- What drawing the first `n` columns of a row does to each pixel and to the collision. -/
theorem drawCols_spec (x0 : Byte) (y : Fin Config.fbH) (row : Byte) (n : Nat) (hn : n ≤ 64) (c : Canvas) :
    (∀ px py, (drawCols x0 y row n c).fb.pixel px py = true ↔
      ((c.fb.pixel px py = false ∧ py = y ∧ inCols x0 row n px) ∨
        (c.fb.pixel px py = true ∧ ¬ (py = y ∧ inCols x0 row n px)))) ∧
    ((drawCols x0 y row n c).hit = true ↔ c.hit = true ∨ ∃ px, inCols x0 row n px ∧ c.fb.pixel px y = true) := by
  classical
  induction n with
  | zero => simp [drawCols, inCols]
  | succ n ih =>
    obtain ⟨ihp, ihh⟩ := ih (by omega)
    have hsucc : ∀ px, inCols x0 row (n + 1) px ↔
        inCols x0 row n px ∨ (spriteBit row n = true ∧ px = pixelX x0 n) := by
      intro px
      constructor
      · rintro ⟨col, hcol, hb, hp⟩
        by_cases h : col = n
        · subst h; exact .inr ⟨hb, hp⟩
        · exact .inl ⟨col, by omega, hb, hp⟩
      · rintro (⟨col, hcol, hb, hp⟩ | ⟨hb, hp⟩)
        · exact ⟨col, by omega, hb, hp⟩
        · exact ⟨n, by omega, hb, hp⟩
    have hfresh : ¬ inCols x0 row n (pixelX x0 n) := by
      rintro ⟨col, hcol, -, hp⟩
      have := pixelX_inj x0 (by omega) (by omega) hp
      omega
    by_cases hb : spriteBit row n = true
    · have hd : drawCols x0 y row (n + 1) c = (drawCols x0 y row n c).plot (pixelX x0 n) y := by
        simp [drawCols, hb]
      have hold : ((drawCols x0 y row n c).fb.pixel (pixelX x0 n) y = true) ↔ c.fb.pixel (pixelX x0 n) y = true := by
        rw [ihp]; simp [hfresh]
      constructor
      · intro px py
        rw [hd]
        simp only [Canvas.plot, Framebuffer.pixel_toggle, hsucc, hb, true_and]
        by_cases hpx : px = pixelX x0 n
        · by_cases hpy : py = y
          · subst hpx; subst hpy
            have : ((drawCols x0 py row n c).fb.pixel (pixelX x0 n) py) = c.fb.pixel (pixelX x0 n) py :=
              Bool.eq_iff_iff.mpr hold
            simp [this]
          · simpa [hpx, hpy] using ihp (pixelX x0 n) py
        · simpa [hpx] using ihp px py
      · rw [hd]
        simp only [Canvas.plot, Bool.or_eq_true, ihh, hold, hsucc, hb, true_and]
        constructor
        · rintro ((h | ⟨px, h1, h2⟩) | h)
          · exact .inl h
          · exact .inr ⟨px, .inl h1, h2⟩
          · exact .inr ⟨_, .inr rfl, h⟩
        · rintro (h | ⟨px, h1 | h1, h2⟩)
          · exact .inl (.inl h)
          · exact .inl (.inr ⟨px, h1, h2⟩)
          · subst h1; exact .inr h2
    · have hd : drawCols x0 y row (n + 1) c = drawCols x0 y row n c := by simp [drawCols, hb]
      rw [hd]
      simp only [hsucc, hb, Bool.false_eq_true, false_and, or_false]
      exact ⟨ihp, ihh⟩

/-! ## The sprite -/

/-- A pixel that one of the first `n` rows of the sprite at `a` lights. -/
def inRows (m : Memory) (a : Nat) (x0 y0 : Byte) (n : Nat) (px : Fin Config.fbW) (py : Fin Config.fbH) : Prop :=
  ∃ row, row < n ∧ py = pixelY y0 row ∧ inCols x0 (m.read (a + row)) 8 px

/-- What drawing the first `n` rows of a sprite does to each pixel and to the collision. -/
theorem drawRows_spec (m : Memory) (a : Nat) (x0 y0 : Byte) (n : Nat) (hn : n ≤ 32) (c : Canvas) :
    (∀ px py, (drawRows m a x0 y0 n c).fb.pixel px py = true ↔
      ((c.fb.pixel px py = false ∧ inRows m a x0 y0 n px py) ∨
        (c.fb.pixel px py = true ∧ ¬ inRows m a x0 y0 n px py))) ∧
    ((drawRows m a x0 y0 n c).hit = true ↔
      c.hit = true ∨ ∃ px py, inRows m a x0 y0 n px py ∧ c.fb.pixel px py = true) := by
  classical
  induction n with
  | zero => simp [drawRows, inRows]
  | succ n ih =>
    obtain ⟨ihp, ihh⟩ := ih (by omega)
    obtain ⟨hp, hh⟩ := drawCols_spec x0 (pixelY y0 n) (m.read (a + n)) 8 (by omega) (drawRows m a x0 y0 n c)
    have hsucc : ∀ px py, inRows m a x0 y0 (n + 1) px py ↔
        inRows m a x0 y0 n px py ∨ (py = pixelY y0 n ∧ inCols x0 (m.read (a + n)) 8 px) := by
      intro px py
      constructor
      · rintro ⟨row, hrow, h1, h2⟩
        by_cases h : row = n
        · subst h; exact .inr ⟨h1, h2⟩
        · exact .inl ⟨row, by omega, h1, h2⟩
      · rintro (⟨row, hrow, h1, h2⟩ | ⟨h1, h2⟩)
        · exact ⟨row, by omega, h1, h2⟩
        · exact ⟨n, by omega, h1, h2⟩
    have hfresh : ∀ px, ¬ inRows m a x0 y0 n px (pixelY y0 n) := by
      rintro px ⟨row, hrow, h1, -⟩
      have := pixelY_inj y0 (by omega) (by omega) h1
      omega
    have hrow : ∀ px, (drawRows m a x0 y0 n c).fb.pixel px (pixelY y0 n) = c.fb.pixel px (pixelY y0 n) := by
      intro px
      have := ihp px (pixelY y0 n)
      simp only [hfresh px, and_false, false_or, not_false_iff, and_true] at this
      exact Bool.eq_iff_iff.mpr this
    constructor
    · intro px py
      rw [show drawRows m a x0 y0 (n + 1) c =
        drawCols x0 (pixelY y0 n) (m.read (a + n)) 8 (drawRows m a x0 y0 n c) from rfl, hp]
      simp only [hsucc]
      by_cases hy : py = pixelY y0 n
      · subst hy
        by_cases hc : inCols x0 (m.read (a + n)) 8 px <;> simp [hc, hrow, hfresh]
      · simpa [hy] using ihp px py
    · rw [show drawRows m a x0 y0 (n + 1) c =
        drawCols x0 (pixelY y0 n) (m.read (a + n)) 8 (drawRows m a x0 y0 n c) from rfl, hh, ihh]
      simp only [hsucc, hrow]
      constructor
      · rintro ((h | ⟨px, py, h1, h2⟩) | ⟨px, h1, h2⟩)
        · exact .inl h
        · exact .inr ⟨px, py, .inl h1, h2⟩
        · exact .inr ⟨px, _, .inr ⟨rfl, h1⟩, h2⟩
      · rintro (h | ⟨px, py, h1 | ⟨rfl, h1⟩, h2⟩)
        · exact .inl (.inl h)
        · exact .inl (.inr ⟨px, py, h1, h2⟩)
        · exact .inr ⟨px, h1, h2⟩

end Sys2Proof.Machine
end

