-- ==== Sys2Proof/Laws/Index.lean ====
section
/-! SUPPORT. The register dump and load, and the decimal digits: 42_index_memory.md R183 to R185. -/

namespace Sys2Proof.Machine

@[simp] theorem effAddr_zero (s : State) : effAddr s 0 = s.idx.toNat := rfl

@[simp] theorem length_bcdDigits (v : Byte) : (bcdDigits v).length = 3 := rfl

/-- The run of registers a dump stores has `X + 1` bytes (R184). -/
@[simp] theorem length_regsUpTo (s : State) (x : RegIdx) : (regsUpTo s x).length = x.val + 1 := by
  have := x.isLt
  simp [regsUpTo]

/-- Byte `k` of the dump is `V[k]` (R184). -/
theorem getElem_regsUpTo (s : State) (x : RegIdx) (k : Nat) (hk : k < (regsUpTo s x).length) :
    (regsUpTo s x)[k] = s.reg ⟨k, by have := x.isLt; simp at hk; omega⟩ := by
  simp [regsUpTo, State.reg]

/-- The registers after `n` loads: the first `n` come from memory, the rest are as they were (R185). -/
theorem getElem_loadRegs (m : Memory) (a n : Nat) (regs : Vector Byte 16) (k : Nat) (hk : k < 16) :
    (loadRegs m a n regs)[k] = if k < n then m.read (a + k) else regs[k] := by
  induction n with
  | zero => simp [loadRegs]
  | succ n ih =>
    simp only [loadRegs, Vector.getElem_setIfInBounds, ih]
    by_cases h : n = k
    · subst h; simp
    · have : (k < n + 1) = (k < n) := by simp only [eq_iff_iff]; omega
      simp [h, this]

/-- A register after FX65's loads (R185). -/
theorem reg_loadRegs (s : State) (m : Memory) (a n : Nat) (r : RegIdx) :
    (s.setRegs (loadRegs m a n s.regs)).reg r = if r.val < n then m.read (a + r.val) else s.reg r := by
  simp [State.reg, getElem_loadRegs]

end Sys2Proof.Machine
end

