-- ==== Sys2Proof/Laws/Exec.lean ====
section
/-! SUPPORT. What an instruction can do, said once: it faults, it blocks, or it completes from a state whose latch and host
inputs are untouched. -/

namespace Sys2Proof.Machine

/-- An answer that completes the instruction: `pc` and `reply` set on a state with the latch and the host's inputs of `s`. -/
def Completed (s : State) (r : Result) : Prop :=
  ∃ target u, r = completeAt target u ∧ u.fault = s.fault ∧ u.keys = s.keys ∧ u.press = s.press ∧
    u.pending = s.pending ∧ u.started = s.started

/-- A checked access whose body completes either completes or faults. -/
theorem withRun_completed {a n : Nat} {s : State} {body : State → Result} (h : Completed s (body s)) :
    (∃ f, withRun a n s body = raise f s) ∨ Completed s (withRun a n s body) := by
  rcases withRun_cases a n s body with ⟨-, hw⟩ | ⟨-, hw⟩
  · exact .inr (hw ▸ h)
  · exact .inl ⟨_, hw⟩

/-- The three ends of an instruction (00_scope.md R7). A later proof splits on these and not on the meanings. -/
theorem exec_cases (i : Instr) (s : State) :
    (∃ f, exec i s = raise f s) ∨ (exec i s = block s ∧ s.press = none ∧ ∃ x, i = .ldVxK x) ∨ Completed s (exec i s) := by
  cases i with
  | ret =>
    by_cases h : s.sp.val = 0
    · exact .inl ⟨.stackUnderflow, by simp [exec, execRet, h]⟩
    · exact .inr (.inr ⟨s.top, s.pop, by simp [exec, execRet, h], rfl, rfl, rfl, rfl, rfl⟩)
  | sys nnn => exact .inl ⟨_, rfl⟩
  | unknown w => exact .inl ⟨_, rfl⟩
  | call nnn =>
    by_cases h : s.sp.val < Config.stackDepth
    · exact .inr (.inr ⟨addr16 nnn, s.push (s.pc + 2) h, by simp only [exec, execCall, h, dif_pos], rfl, rfl, rfl, rfl, rfl⟩)
    · exact .inl ⟨.stackOverflow, by simp only [exec, execCall, h, dif_neg, not_false_iff]⟩
  | drw x y n =>
    simp only [exec, execDrw]
    refine Or.imp_right .inr (withRun_completed ?_)
    exact ⟨_, _, rfl, rfl, rfl, rfl, rfl, rfl⟩
  | ldB x =>
    simp only [exec, execLdB]
    refine Or.imp_right .inr (withRun_completed ?_)
    exact ⟨_, _, rfl, rfl, rfl, rfl, rfl, rfl⟩
  | stRegs x =>
    simp only [exec, execStRegs]
    refine Or.imp_right .inr (withRun_completed ?_)
    exact ⟨_, _, rfl, rfl, rfl, rfl, rfl, rfl⟩
  | ldRegs x =>
    simp only [exec, execLdRegs]
    refine Or.imp_right .inr (withRun_completed ?_)
    exact ⟨_, _, rfl, rfl, rfl, rfl, rfl, rfl⟩
  | ldVxK x =>
    cases hp : s.press with
    | none => exact .inr (.inl ⟨by simp [exec, execLdVxK, hp], rfl, x, rfl⟩)
    | some k =>
      exact .inr (.inr ⟨s.pc + 2, s.setReg x (BitVec.ofNat 8 k.val), by simp [exec, execLdVxK, hp, advance], rfl, rfl,
        rfl, rfl, rfl⟩)
  | cls | jp | seImm | sneImm | seReg | sneReg | ldImm | addImm | ldReg | or | and | xor | addReg | sub | shr | subn | shl
  | ldI | jpV0 | skp | sknp | ldVxDt | ldDtVx | ldStVx | addI | ldF =>
    exact .inr (.inr ⟨_, _, rfl, rfl, rfl, rfl, rfl, rfl⟩)

end Sys2Proof.Machine
end

