-- ==== Sys2Proof/Laws/Step.lean ====
section
/-! SUPPORT. What the checked accesses answer in and out of range, and what a step and a Cycle answer, said once. -/

namespace Sys2Proof.Machine

/-! ## Checked accesses -/

theorem exec_ldB_inRange {x : RegIdx} {s : State} (h : runInRange (effAddr s 0) 3 = true) :
    exec (.ldB x) s = advance (s.setMem (s.mem.writeRun (effAddr s 0) (bcdDigits (s.reg x)))) := by
  simp only [exec, execLdB, withRun, h, if_true]

theorem exec_stRegs_inRange {x : RegIdx} {s : State} (h : runInRange (effAddr s 0) (x.val + 1) = true) :
    exec (.stRegs x) s = advance (s.setMem (s.mem.writeRun (effAddr s 0) (regsUpTo s x))) := by
  simp only [exec, execStRegs, withRun, h, if_true]

theorem exec_ldRegs_inRange {x : RegIdx} {s : State} (h : runInRange (effAddr s 0) (x.val + 1) = true) :
    exec (.ldRegs x) s = advance (s.setRegs (loadRegs s.mem (effAddr s 0) (x.val + 1) s.regs)) := by
  simp only [exec, execLdRegs, withRun, h, if_true]

theorem exec_drw_inRange {x y : RegIdx} {n : Fin 16} {s : State} (h : runInRange (effAddr s 0) n.val = true) :
    exec (.drw x y n) s =
      advance ((s.setFb (drawSprite s x y n.val).fb).setFlag (collisionFlag (drawSprite s x y n.val).hit)) := by
  simp only [exec, execDrw, withRun, h, if_true]

theorem exec_ldB_outOfRange {x : RegIdx} {s : State} (h : runInRange (effAddr s 0) 3 = false) :
    exec (.ldB x) s = raise .outOfBounds s := by
  simp only [exec, execLdB, withRun, h, Bool.false_eq_true, if_false]

theorem exec_stRegs_outOfRange {x : RegIdx} {s : State} (h : runInRange (effAddr s 0) (x.val + 1) = false) :
    exec (.stRegs x) s = raise .outOfBounds s := by
  simp only [exec, execStRegs, withRun, h, Bool.false_eq_true, if_false]

theorem exec_ldRegs_outOfRange {x : RegIdx} {s : State} (h : runInRange (effAddr s 0) (x.val + 1) = false) :
    exec (.ldRegs x) s = raise .outOfBounds s := by
  simp only [exec, execLdRegs, withRun, h, Bool.false_eq_true, if_false]

theorem exec_drw_outOfRange {x y : RegIdx} {n : Fin 16} {s : State} (h : runInRange (effAddr s 0) n.val = false) :
    exec (.drw x y n) s = raise .outOfBounds s := by
  simp only [exec, execDrw, withRun, h, Bool.false_eq_true, if_false]

/-! ## Requests and steps -/

theorem nextRequest_eq_none_iff {s : State} : s.nextRequest = none ↔ s.pending = [] := List.head?_eq_none_iff

theorem nextRequest_cons {s : State} {r : Request} {rs : List Request} (h : s.pending = r :: rs) :
    s.nextRequest = some r := by
  simp only [State.nextRequest, h, List.head?_cons]

/-- Everything a step can do: nothing, or one request. -/
theorem step_cases (s : State) :
    (s.pending = [] ∧ step s = .next s) ∨ ∃ r, s.nextRequest = some r ∧ step s = serve r s.dropRequest := by
  cases h : s.nextRequest with
  | none => exact .inl ⟨nextRequest_eq_none_iff.mp h, by simp only [step, serveNext, h]⟩
  | some r => exact .inr ⟨r, rfl, by simp only [step, serveNext, h]⟩

/-- A step with no request pending. -/
theorem step_of_none {s : State} (h : s.pending = []) : step s = .next s := by
  simp only [step, serveNext, nextRequest_eq_none_iff.mpr h]

theorem step_of_request {s : State} {r : Request} (h : s.nextRequest = some r) : step s = serve r s.dropRequest := by
  simp only [step, serveNext, h]

/-- A step whose request is a Cycle. -/
theorem step_of_cycle {s : State} {p : Option Key} (h : s.nextRequest = some (.cycle p)) :
    step s = mapNext State.endCycle (runCycle (s.dropRequest.setPress p)) := by
  rw [step_of_request h]; rfl

/-- A step whose request is a Tick. -/
theorem step_of_tick {s : State} (h : s.nextRequest = some .tick) : step s = .next (s.dropRequest.tick.setReply .ok) := by
  rw [step_of_request h]; rfl

/-- A Cycle of a core that is not halted and whose fetch is in range runs the decoded instruction. -/
theorem runCycle_of_fetch {s : State} {w : Word} (hf : s.fault = none) (hw : fetch s = some w) :
    runCycle s = exec (decodeWord w) s := by
  simp only [runCycle, hf, hw]

theorem runCycle_halted {s : State} {f : Fault} (hf : s.fault = some f) :
    runCycle s = .next (s.setReply (.fault f)) := by
  simp only [runCycle, hf]

theorem runCycle_fetchFault {s : State} (hf : s.fault = none) (hw : fetch s = none) :
    runCycle s = raise .outOfBounds s := by
  simp only [runCycle, hf, hw]

/-- A fetch reads `pc` and memory only (20_memory.md R64). -/
theorem fetch_congr {s t : State} (hp : t.pc = s.pc) (hm : t.mem = s.mem) : fetch t = fetch s := by
  simp only [fetch, hp, hm]

theorem fetch_eq_some_iff {s : State} {w : Word} :
    fetch s = some w ↔ s.pc.toNat + 2 ≤ 4096 ∧ wordAt s.mem s.pc.toNat = w := by
  simp only [fetch]
  split <;> rename_i h
  · have := (runInRange_iff _ _).mp h
    simp only [Config.instrBytes] at this
    simp only [Option.some.injEq, iff_and_self]
    omega
  · have := (runInRange_false_iff _ _).mp (Bool.not_eq_true _ ▸ h)
    simp only [Config.instrBytes] at this
    simp only [reduceCtorEq, false_iff]
    omega

theorem mapNext_eq_next_iff {f : State → State} {r : Result} {t : State} :
    mapNext f r = .next t ↔ ∃ u, r = .next u ∧ f u = t := by
  cases r <;> simp [mapNext]

end Sys2Proof.Machine
end

