-- ==== Sys2Proof/Laws/Frame.lean ====
section
/-! SUPPORT. Frames: `Keeps` along each named update, and the three ends of an instruction in one frame lemma each. -/

namespace Sys2Proof.Machine

theorem Keeps.refl (c : MayChange) (s : State) : Keeps c s s := by constructor <;> intros <;> rfl

/-- `pc` is outside every frame. -/
theorem Keeps.setPc {c : MayChange} {s t : State} (h : Keeps c s t) (v : Word) : Keeps c s (t.setPc v) :=
  ⟨h.reg, h.idx, h.sp, h.stack, h.dt, h.st, h.fb, h.byte, h.fault, h.keys, h.press, h.pending, h.started⟩

/-- The answer is outside every frame. -/
theorem Keeps.setReply {c : MayChange} {s t : State} (h : Keeps c s t) (r : Reply) : Keeps c s (t.setReply r) :=
  ⟨h.reg, h.idx, h.sp, h.stack, h.dt, h.st, h.fb, h.byte, h.fault, h.keys, h.press, h.pending, h.started⟩

/-- Writing a register the frame exempts. -/
theorem Keeps.setReg {c : MayChange} {s t : State} (h : Keeps c s t) (x : RegIdx) (v : Byte) (hx : c.reg x) :
    Keeps c s (t.setReg x v) :=
  ⟨fun r hr => (State.reg_setReg_ne t x r v (by rintro rfl; exact hr hx)).trans (h.reg r hr),
    h.idx, h.sp, h.stack, h.dt, h.st, h.fb, h.byte, h.fault, h.keys, h.press, h.pending, h.started⟩

theorem Keeps.setFlag {c : MayChange} {s t : State} (h : Keeps c s t) (v : Byte) (hx : c.reg 15) :
    Keeps c s (t.setFlag v) :=
  h.setReg 15 v hx

theorem Keeps.setIdx {c : MayChange} {s t : State} (h : Keeps c s t) (v : Word) (hc : c.idx) : Keeps c s (t.setIdx v) :=
  ⟨h.reg, fun n => absurd hc n, h.sp, h.stack, h.dt, h.st, h.fb, h.byte, h.fault, h.keys, h.press, h.pending, h.started⟩

theorem Keeps.setDt {c : MayChange} {s t : State} (h : Keeps c s t) (v : Byte) (hc : c.dt) : Keeps c s (t.setDt v) :=
  ⟨h.reg, h.idx, h.sp, h.stack, fun n => absurd hc n, h.st, h.fb, h.byte, h.fault, h.keys, h.press, h.pending, h.started⟩

theorem Keeps.setSt {c : MayChange} {s t : State} (h : Keeps c s t) (v : Byte) (hc : c.st) : Keeps c s (t.setSt v) :=
  ⟨h.reg, h.idx, h.sp, h.stack, h.dt, fun n => absurd hc n, h.fb, h.byte, h.fault, h.keys, h.press, h.pending, h.started⟩

theorem Keeps.setFb {c : MayChange} {s t : State} (h : Keeps c s t) (fb : Framebuffer) (hc : c.fb) :
    Keeps c s (t.setFb fb) :=
  ⟨h.reg, h.idx, h.sp, h.stack, h.dt, h.st, fun n => absurd hc n, h.byte, h.fault, h.keys, h.press, h.pending, h.started⟩

theorem Keeps.setFault {c : MayChange} {s t : State} (h : Keeps c s t) (f : Option Fault) (hc : c.fault) :
    Keeps c s (t.setFault f) :=
  ⟨h.reg, h.idx, h.sp, h.stack, h.dt, h.st, h.fb, h.byte, fun n => absurd hc n, h.keys, h.press, h.pending, h.started⟩

theorem Keeps.push {c : MayChange} {s t : State} (h : Keeps c s t) (v : Word) (hs : t.sp.val < Config.stackDepth)
    (hc : c.stack) : Keeps c s (t.push v hs) :=
  ⟨h.reg, h.idx, fun n => absurd hc n, fun n => absurd hc n, h.dt, h.st, h.fb, h.byte, h.fault, h.keys, h.press,
    h.pending, h.started⟩

theorem Keeps.pop {c : MayChange} {s t : State} (h : Keeps c s t) (hc : c.stack) : Keeps c s t.pop :=
  ⟨h.reg, h.idx, fun n => absurd hc n, fun n => absurd hc n, h.dt, h.st, h.fb, h.byte, h.fault, h.keys, h.press,
    h.pending, h.started⟩

/-- A run of stores whose every address the frame exempts. -/
theorem Keeps.writeRun {c : MayChange} {s t : State} (h : Keeps c s t) (a : Nat) (bytes : List Byte)
    (hc : ∀ b, a ≤ b → b < a + bytes.length → c.byte b) : Keeps c s (t.setMem (t.mem.writeRun a bytes)) :=
  ⟨h.reg, h.idx, h.sp, h.stack, h.dt, h.st, h.fb,
    fun b hb => (Memory.read_writeRun_outside _ a bytes b (by
      by_contra hn
      exact hb (hc b (by omega) (by omega)))).trans (h.byte b hb),
    h.fault, h.keys, h.press, h.pending, h.started⟩

/-- Loading the registers below `n`, all of which the frame exempts. -/
theorem Keeps.loadRegs {c : MayChange} {s t : State} (h : Keeps c s t) (m : Memory) (a n : Nat)
    (hc : ∀ r : RegIdx, r.val < n → c.reg r) : Keeps c s (t.setRegs (Machine.loadRegs m a n t.regs)) :=
  ⟨fun r hr => by
      rw [reg_loadRegs, if_neg fun hn => hr (hc r hn)]
      exact h.reg r hr,
    h.idx, h.sp, h.stack, h.dt, h.st, h.fb, h.byte, h.fault, h.keys, h.press, h.pending, h.started⟩

/-- A larger exemption is a weaker frame. -/
theorem Keeps.mono {c d : MayChange} {s t : State} (h : Keeps c s t) (hr : ∀ r, c.reg r → d.reg r) (hi : c.idx → d.idx)
    (hk : c.stack → d.stack) (hdt : c.dt → d.dt) (hst : c.st → d.st) (hfb : c.fb → d.fb)
    (hb : ∀ a, c.byte a → d.byte a) (hf : c.fault → d.fault) : Keeps d s t :=
  ⟨fun r n => h.reg r fun x => n (hr r x), fun n => h.idx fun x => n (hi x), fun n => h.sp fun x => n (hk x),
    fun n => h.stack fun x => n (hk x), fun n => h.dt fun x => n (hdt x), fun n => h.st fun x => n (hst x),
    fun n => h.fb fun x => n (hfb x), fun a n => h.byte a fun x => n (hb a x), fun n => h.fault fun x => n (hf x),
    h.keys, h.press, h.pending, h.started⟩

/-- A fault changes the latch and nothing else (60_exceptions.md R241). -/
theorem keeps_raise (f : Fault) (s : State) : Keeps { fault := True } s ((s.setFault (some f)).setReply (.fault f)) :=
  ((Keeps.refl _ s).setFault _ trivial).setReply _

/-- Advancing over a state adds nothing to its frame. -/
theorem Keeps.complete {c : MayChange} {s t : State} (h : Keeps c s t) (v : Word) :
    Keeps c s ((t.setPc v).setReply .advanced) :=
  (h.setPc v).setReply _

end Sys2Proof.Machine
end

