-- ==== Sys2Proof/Laws/Host.lean ====
section
/-! SUPPORT. What the host's read port answers, said once per select (70_reset_and_hazards.md R293). -/

namespace Sys2Proof.Machine

@[simp] theorem toNat_dbgZext {n : Nat} (h : n < 65536) : (dbgZext n).toNat = n := by
  simp only [dbgZext, BitVec.toNat_ofNat]
  omega

theorem toNat_dbgZext_byte (b : Byte) : (dbgZext b.toNat).toNat = b.toNat := by
  have := b.isLt
  exact toNat_dbgZext (by omega)

/-- A zero-extended byte determines the byte. -/
theorem dbgZext_byte_inj {a b : Byte} (h : dbgZext a.toNat = dbgZext b.toNat) : a = b :=
  BitVec.eq_of_toNat_eq (by simpa only [toNat_dbgZext_byte] using congrArg BitVec.toNat h)

@[simp] theorem hostRead_idx (addr : Nat) (s : State) : hostRead .idx addr s = .ok s.idx := rfl
@[simp] theorem hostRead_pc (addr : Nat) (s : State) : hostRead .pc addr s = .ok s.pc := rfl
@[simp] theorem hostRead_sp (addr : Nat) (s : State) : hostRead .sp addr s = .ok (dbgZext s.sp.val) := rfl
@[simp] theorem hostRead_dt (addr : Nat) (s : State) : hostRead .dt addr s = .ok (dbgZext s.dt.toNat) := rfl
@[simp] theorem hostRead_st (addr : Nat) (s : State) : hostRead .st addr s = .ok (dbgZext s.st.toNat) := rfl

theorem hostRead_regs (k : RegIdx) (s : State) : hostRead .regs k.val s = .ok (dbgZext (s.reg k).toNat) := by
  simp only [hostRead, k.isLt, dif_pos]

theorem hostRead_stack (k : Fin 16) (s : State) : hostRead .stack k.val s = .ok s.stack[k.val] := by
  have h : k.val < Config.stackDepth := k.isLt
  simp only [hostRead, h, dif_pos]

theorem hostRead_mem {addr : Nat} (h : addr ≤ 4095) (s : State) :
    hostRead .mem addr s = .ok (dbgZext (s.mem.read addr).toNat) := by
  have hr : runInRange addr 1 = true := (runInRange_iff _ _).mpr (by omega)
  simp only [hostRead, hostReadMem, hr, if_true, Except.map]

theorem hostRead_mem_outOfRange {addr : Nat} (h : addr > 4095) (s : State) :
    hostRead .mem addr s = .error .outOfBounds := by
  have hr : runInRange addr 1 = false := (runInRange_false_iff _ _).mpr (by omega)
  simp only [hostRead, hostReadMem, hr, Bool.false_eq_true, if_false, Except.map]

/-- The codes of R240 tell the faults apart. -/
theorem faultKind_inj {s t : State} (h : faultKind t = faultKind s) : t.fault = s.fault := by
  revert h
  simp only [faultKind]
  rcases t.fault with _ | f <;> rcases s.fault with _ | g <;> try cases f
  all_goals try cases g
  all_goals simp [Fault.code]

end Sys2Proof.Machine
end

