-- ==== Sys2Proof/Laws/PerInstr.lean ====
section
/-! SUPPORT. The family RoundTrip: for each constructor, the decoder reads back the instruction from its encoding, whatever
its operands (30_encoding.md R107, decode after encode). -/

namespace Sys2Proof.Laws

/-- A well-formed instruction is what the decoder reads from its word. -/
def RoundTrip.Statement (i : Instr) : Prop := i.wf = true → decodeWord (encode i) = i

open Sys2Proof

theorem RoundTrip.cls : RoundTrip.Statement (.cls) := fun _ => by decide

theorem RoundTrip.ret : RoundTrip.Statement (.ret) := fun _ => by decide

theorem RoundTrip.sys (nnn : Addr12) : RoundTrip.Statement (.sys nnn) := fun h => by
  have h1 : formatA 0x0#4 nnn ≠ 0x00E0#16 := fun e => by
    have := congrArg nnnOf e
    rw [nnnOf_formatA] at this
    subst this
    exact absurd h (by decide)
  have h2 : formatA 0x0#4 nnn ≠ 0x00EE#16 := fun e => by
    have := congrArg nnnOf e
    rw [nnnOf_formatA] at this
    subst this
    exact absurd h (by decide)
  simp [encode, decodeWord, decodeGroup0, h1, h2]

theorem RoundTrip.jp (nnn : Addr12) : RoundTrip.Statement (.jp nnn) := fun _ => by simp [encode, decodeWord]

theorem RoundTrip.call (nnn : Addr12) : RoundTrip.Statement (.call nnn) := fun _ => by simp [encode, decodeWord]

theorem RoundTrip.seImm (x : RegIdx) (nn : Byte) : RoundTrip.Statement (.seImm x nn) := fun _ => by simp [encode, decodeWord]

theorem RoundTrip.sneImm (x : RegIdx) (nn : Byte) : RoundTrip.Statement (.sneImm x nn) := fun _ => by simp [encode, decodeWord]

theorem RoundTrip.seReg (x y : RegIdx) : RoundTrip.Statement (.seReg x y) := fun _ => by simp [encode, decodeWord]

theorem RoundTrip.ldImm (x : RegIdx) (nn : Byte) : RoundTrip.Statement (.ldImm x nn) := fun _ => by simp [encode, decodeWord]

theorem RoundTrip.addImm (x : RegIdx) (nn : Byte) : RoundTrip.Statement (.addImm x nn) := fun _ => by simp [encode, decodeWord]

theorem RoundTrip.ldReg (x y : RegIdx) : RoundTrip.Statement (.ldReg x y) := fun _ => by simp [encode, decodeWord, decodeGroup8]

theorem RoundTrip.or (x y : RegIdx) : RoundTrip.Statement (.or x y) := fun _ => by simp [encode, decodeWord, decodeGroup8]

theorem RoundTrip.and (x y : RegIdx) : RoundTrip.Statement (.and x y) := fun _ => by simp [encode, decodeWord, decodeGroup8]

theorem RoundTrip.xor (x y : RegIdx) : RoundTrip.Statement (.xor x y) := fun _ => by simp [encode, decodeWord, decodeGroup8]

theorem RoundTrip.addReg (x y : RegIdx) : RoundTrip.Statement (.addReg x y) := fun _ => by simp [encode, decodeWord, decodeGroup8]

theorem RoundTrip.sub (x y : RegIdx) : RoundTrip.Statement (.sub x y) := fun _ => by simp [encode, decodeWord, decodeGroup8]

theorem RoundTrip.shr (x y : RegIdx) : RoundTrip.Statement (.shr x y) := fun _ => by simp [encode, decodeWord, decodeGroup8]

theorem RoundTrip.subn (x y : RegIdx) : RoundTrip.Statement (.subn x y) := fun _ => by simp [encode, decodeWord, decodeGroup8]

theorem RoundTrip.shl (x y : RegIdx) : RoundTrip.Statement (.shl x y) := fun _ => by simp [encode, decodeWord, decodeGroup8]

theorem RoundTrip.sneReg (x y : RegIdx) : RoundTrip.Statement (.sneReg x y) := fun _ => by simp [encode, decodeWord]

theorem RoundTrip.ldI (nnn : Addr12) : RoundTrip.Statement (.ldI nnn) := fun _ => by simp [encode, decodeWord]

theorem RoundTrip.jpV0 (nnn : Addr12) : RoundTrip.Statement (.jpV0 nnn) := fun _ => by simp [encode, decodeWord]

theorem RoundTrip.drw (x y : RegIdx) (n : Fin 16) : RoundTrip.Statement (.drw x y n) := fun _ => by simp [encode, decodeWord]

theorem RoundTrip.skp (x : RegIdx) : RoundTrip.Statement (.skp x) := fun _ => by simp [encode, decodeWord, decodeGroupE]

theorem RoundTrip.sknp (x : RegIdx) : RoundTrip.Statement (.sknp x) := fun _ => by simp [encode, decodeWord, decodeGroupE]

theorem RoundTrip.ldVxDt (x : RegIdx) : RoundTrip.Statement (.ldVxDt x) := fun _ => by simp [encode, decodeWord, decodeGroupF]

theorem RoundTrip.ldVxK (x : RegIdx) : RoundTrip.Statement (.ldVxK x) := fun _ => by simp [encode, decodeWord, decodeGroupF]

theorem RoundTrip.ldDtVx (x : RegIdx) : RoundTrip.Statement (.ldDtVx x) := fun _ => by simp [encode, decodeWord, decodeGroupF]

theorem RoundTrip.ldStVx (x : RegIdx) : RoundTrip.Statement (.ldStVx x) := fun _ => by simp [encode, decodeWord, decodeGroupF]

theorem RoundTrip.addI (x : RegIdx) : RoundTrip.Statement (.addI x) := fun _ => by simp [encode, decodeWord, decodeGroupF]

theorem RoundTrip.ldF (x : RegIdx) : RoundTrip.Statement (.ldF x) := fun _ => by simp [encode, decodeWord, decodeGroupF]

theorem RoundTrip.ldB (x : RegIdx) : RoundTrip.Statement (.ldB x) := fun _ => by simp [encode, decodeWord, decodeGroupF]

theorem RoundTrip.stRegs (x : RegIdx) : RoundTrip.Statement (.stRegs x) := fun _ => by simp [encode, decodeWord, decodeGroupF]

theorem RoundTrip.ldRegs (x : RegIdx) : RoundTrip.Statement (.ldRegs x) := fun _ => by simp [encode, decodeWord, decodeGroupF]

/-- The words of the UNKNOWN class (30_encoding.md R101) are words the decoder finds no case for. -/
theorem RoundTrip.unknown (w : Word) : RoundTrip.Statement (.unknown w) := fun h => by
  have hop : ∀ k : BitVec 4, w.toNat / 0x1000 = k.toNat → opOf w = k := fun k hk =>
    BitVec.eq_of_toNat_eq ((toNat_opOf w).trans hk)
  have hn : ∀ k : BitVec 4, w.toNat % 0x10 = k.toNat → nOf w = k := fun k hk =>
    BitVec.eq_of_toNat_eq ((toNat_nOf w).trans hk)
  simp only [Instr.wf, unknownWord, Bool.or_eq_true, Bool.and_eq_true, beq_iff_eq, Bool.not_eq_true',
    List.contains_eq_mem, decide_eq_true_eq, decide_eq_false_iff_not, List.mem_cons, List.not_mem_nil, or_false,
    not_or] at h
  rcases h with ((hC | ⟨h8, ht⟩) | ⟨hE, hl⟩) | ⟨hF, hl⟩
  · simp [encode, decodeWord, hop 0xC#4 hC]
  · rcases ht with ht | ht | ht | ht | ht | ht | ht
    · simp [encode, decodeWord, decodeGroup8, hop 0x8#4 h8, hn 0x8#4 ht]
    · simp [encode, decodeWord, decodeGroup8, hop 0x8#4 h8, hn 0x9#4 ht]
    · simp [encode, decodeWord, decodeGroup8, hop 0x8#4 h8, hn 0xA#4 ht]
    · simp [encode, decodeWord, decodeGroup8, hop 0x8#4 h8, hn 0xB#4 ht]
    · simp [encode, decodeWord, decodeGroup8, hop 0x8#4 h8, hn 0xC#4 ht]
    · simp [encode, decodeWord, decodeGroup8, hop 0x8#4 h8, hn 0xD#4 ht]
    · simp [encode, decodeWord, decodeGroup8, hop 0x8#4 h8, hn 0xF#4 ht]
  · simp only [encode, decodeWord, hop 0xE#4 hE, decodeGroupE]
    rw [← toNat_nnOf] at hl
    split
    · next he => simp [he] at hl
    · next he => simp [he] at hl
    · rfl
  · simp only [encode, decodeWord, hop 0xF#4 hF, decodeGroupF]
    rw [← toNat_nnOf] at hl
    split
    all_goals first | rfl | (next he => simp [he] at hl)

end Sys2Proof.Laws
end

