-- ==== Sys2Proof/Tests/Slice0.lean ====
section
/-! SUPPORT. Tests of the model against the spec's own examples and vectors (95_test_vectors.md; the id stands in each comment):
well-formedness, decoding, one step per test; and, for every statement of Certificates/Slice0/Obligations.lean that has hypotheses, a
witness that meets them, one for each clause at a boundary. -/

set_option Elab.async false

namespace Sys2Proof.Tests

open Sys2Proof Sys2Proof.Machine

/-! ## Helpers -/

/-- The reset state with some registers set. -/
def start (regs : List (RegIdx × Byte)) : State := regs.foldl (fun s p => s.setReg p.1 p.2) State.reset

/-- The same with `I` at an address and bytes placed there. -/
def startAt (i : Word) (bytes : List Byte) (regs : List (RegIdx × Byte)) : State :=
  ((start regs).setIdx i).setMem ((start regs).mem.writeRun i.toNat bytes)

/-- One step with a word placed where it fetches. -/
def run (w : Nat) (s : State) : Result := step (s.withFetchWord 16 w)

/-- Whether an outcome is a next state with a property. -/
def nextHas (r : Result) (p : State → Bool) : Bool :=
  match r with
  | .next t => p t
  | .fault _ => false
  | .refused _ => false

/-- The instruction advanced to an address. -/
def advancedTo (t : State) (pc : Word) : Bool := t.pc == pc && t.reply == .advanced && t.fault == none

/-- The instruction faulted at an address. -/
def faultedAt (t : State) (pc : Word) (f : Fault) : Bool := t.pc == pc && t.reply == .fault f && t.fault == some f

/-- The bytes of memory from an address on. -/
def bytesAt (t : State) (a n : Nat) : List Byte := (List.range n).map fun k => t.mem.read (a + k)

/-- The screen with exactly these pixels on. -/
def screen (on : List (Fin 64 × Fin 32)) : Framebuffer := on.foldl (fun fb p => fb.toggle p.1 p.2) Framebuffer.cleared

/-- These pixels are on. -/
def lit (t : State) (px : List (Fin 64 × Fin 32)) : Bool := px.all fun p => t.fb.pixel p.1 p.2

/-- These pixels are off. -/
def dark (t : State) (px : List (Fin 64 × Fin 32)) : Bool := px.all fun p => !(t.fb.pixel p.1 p.2)

/-- The state with that many entries on the stack, each of them `v`. -/
def stacked (n : Fin 17) (v : Word) (s : State) : State := { s with sp := n, stack := Vector.replicate 16 v }

/-- The state with one key down. -/
def keyHeld (k : Key) (s : State) : State := s.setKeys ((Vector.replicate 16 false).set k.val true)

/-- The state with requests pending. -/
def asked (rs : List Request) (s : State) : State := { s with pending := rs }

/-! ## Well-formedness: 30_encoding.md R97, R101 -/

/-- The word 00E0 is CLS, not SYS (R97). -/
theorem test_wf_refuses_sys_of_cls :
    (Instr.sys 0x0E0#12).wf = false := by decide

/-- The word 00EE is RET, not SYS (R97). -/
theorem test_wf_refuses_sys_of_ret :
    (Instr.sys 0x0EE#12).wf = false := by decide

/-- Words with a defined case are not UNKNOWN (R101). -/
theorem test_wf_refuses_unknown_of_defined_word :
    (Instr.unknown 0x1234#16).wf = false ∧ (Instr.unknown 0x8124#16).wf = false ∧ (Instr.unknown 0xE29E#16).wf = false ∧
      (Instr.unknown 0xF265#16).wf = false := by decide

/-- D2, D15; every field value is legal (R93). -/
theorem test_wf_accepts :
    (Instr.sys 0x0E1#12).wf = true ∧ (Instr.unknown 0xC0FF#16).wf = true ∧ (Instr.drw 15 15 0).wf = true := by decide

/-! ## Decoding: every constructor from a word of the spec -/

/-- S2, S3, D1 to D5. -/
theorem test_decode_group0 :
    decodeWord 0x00E0#16 = .cls ∧
      decodeWord 0x00EE#16 = .ret ∧
      decodeWord 0x0000#16 = .sys 0x000#12 ∧
      decodeWord 0x00E1#16 = .sys 0x0E1#12 ∧
      decodeWord 0x00EF#16 = .sys 0x0EF#12 ∧
      decodeWord 0x01E0#16 = .sys 0x1E0#12 ∧
      decodeWord 0x0FFF#16 = .sys 0xFFF#12 := by decide

/-- S4, S5, S6, D14. -/
theorem test_decode_address_forms :
    decodeWord 0x1ABC#16 = .jp 0xABC#12 ∧
      decodeWord 0x2ABC#16 = .call 0xABC#12 ∧
      decodeWord 0xAABC#16 = .ldI 0xABC#12 ∧
      decodeWord 0xBABC#16 = .jpV0 0xABC#12 := by decide

/-- S7, D6, D9, D10. -/
theorem test_decode_immediate_forms :
    decodeWord 0x3199#16 = .seImm 1 0x99#8 ∧
      decodeWord 0x4199#16 = .sneImm 1 0x99#8 ∧
      decodeWord 0x6A9C#16 = .ldImm 0xA 0x9C#8 ∧
      decodeWord 0x71FF#16 = .addImm 1 0xFF#8 := by decide

/-- S8, D7, D8, C21. -/
theorem test_decode_register_skips :
    decodeWord 0x5120#16 = .seReg 1 2 ∧
      decodeWord 0x5127#16 = .seReg 1 2 ∧
      decodeWord 0x912F#16 = .sneReg 1 2 ∧
      decodeWord 0x9120#16 = .sneReg 1 2 := by decide

/-- S9, D11, D12. -/
theorem test_decode_group8 :
    decodeWord 0x8120#16 = .ldReg 1 2 ∧
      decodeWord 0x8121#16 = .or 1 2 ∧
      decodeWord 0x8122#16 = .and 1 2 ∧
      decodeWord 0x8123#16 = .xor 1 2 ∧
      decodeWord 0x8124#16 = .addReg 1 2 ∧
      decodeWord 0x8125#16 = .sub 1 2 ∧
      decodeWord 0x8126#16 = .shr 1 2 ∧
      decodeWord 0x8127#16 = .subn 1 2 ∧
      decodeWord 0x812E#16 = .shl 1 2 := by decide

/-- D16, D17. -/
theorem test_decode_draw_and_keys :
    decodeWord 0xD125#16 = .drw 1 2 5 ∧
      decodeWord 0xE29E#16 = .skp 2 ∧
      decodeWord 0xE2A1#16 = .sknp 2 := by decide

/-- D19. -/
theorem test_decode_groupF :
    decodeWord 0xF207#16 = .ldVxDt 2 ∧
      decodeWord 0xF20A#16 = .ldVxK 2 ∧
      decodeWord 0xF215#16 = .ldDtVx 2 ∧
      decodeWord 0xF218#16 = .ldStVx 2 ∧
      decodeWord 0xF21E#16 = .addI 2 ∧
      decodeWord 0xF229#16 = .ldF 2 ∧
      decodeWord 0xF233#16 = .ldB 2 ∧
      decodeWord 0xF255#16 = .stRegs 2 ∧
      decodeWord 0xF265#16 = .ldRegs 2 := by decide

/-- D13, D15, D18, D20. -/
theorem test_decode_unknown :
    [0x8128#16, 0x8129#16, 0x812A#16, 0x812B#16, 0x812C#16, 0x812D#16, 0x812F#16, 0xC0FF#16, 0xCFFF#16, 0xC000#16, 0xE20A#16,
      0xE29F#16, 0xE200#16, 0xE2A0#16, 0xF29E#16, 0xF2A1#16, 0xF200#16, 0xF275#16, 0xF285#16, 0xFFFF#16, 0xF1FF#16].all
      (fun w => decodeWord w == .unknown w) = true := by decide

/-- H5: the byte at the lower address is the high half. -/
theorem test_decode_bytes_big_endian :
    decode [0x12#8, 0x00#8, 0x34#8] = .ok (.jp 0x200#12, [0x34#8]) := by decide

/-- R90: an instruction is two bytes. -/
theorem test_decode_truncated :
    decode [0x12#8] = .error .truncated := by decide

/-- S8, D16, D19, D6 read backwards (R107). -/
theorem test_encode_words :
    encode (.seReg 1 2) = 0x5120#16 ∧ encode (.drw 1 2 5) = 0xD125#16 ∧ encode (.ldRegs 2) = 0xF265#16 ∧
      encode (.sneImm 1 0x99#8) = 0x4199#16 := by decide

/-! ## Control transfer -/

/-- C1. -/
theorem test_jp :
    nextHas (run 0x1ABC (start [])) (fun t => advancedTo t 0x0ABC#16 && t.sp == 0) = true := by decide

/-- C3. -/
theorem test_jp_odd_target :
    nextHas (run 0x1201 (start [])) (fun t => advancedTo t 0x0201#16) = true := by decide

/-- C7. -/
theorem test_call_at_the_top_of_memory :
    nextHas (run 0x2300 (State.reset.setPc 0x0FFE#16)) (fun t => advancedTo t 0x0300#16 && t.sp == 1 && t.stack[0] == 0x1000#16) = true := by decide

/-- C12. -/
theorem test_call_overflow :
    nextHas (run 0x2300 (stacked 16 0x0111#16 State.reset)) (fun t => faultedAt t 0x0200#16 .stackOverflow && t.sp == 16 && t.stack == Vector.replicate 16 0x0111#16) = true := by decide

/-- C8. -/
theorem test_ret :
    nextHas (run 0x00EE ((stacked 1 0x0206#16 State.reset).setPc 0x0212#16)) (fun t => advancedTo t 0x0206#16 && t.sp == 0 && t.stack[0] == 0x0206#16) = true := by decide

/-- C9. -/
theorem test_ret_underflow :
    nextHas (run 0x00EE (start [])) (fun t => faultedAt t 0x0200#16 .stackUnderflow && t.sp == 0) = true := by decide

/-- Section 2.3. -/
theorem test_sys :
    nextHas (run 0x0FFF (start [(1, 0x05#8)])) (fun t => faultedAt t 0x0200#16 .unknownInstruction && t.reg 1 == 0x05#8) = true := by decide

/-- Section 2.3. -/
theorem test_unknown :
    nextHas (run 0xF1FF (start [(1, 0x05#8)])) (fun t => faultedAt t 0x0200#16 .unknownInstruction && t.reg 1 == 0x05#8) = true := by decide

/-- C13. -/
theorem test_seImm_skips :
    nextHas (run 0x3199 (start [(1, 0x99#8)])) (fun t => advancedTo t 0x0204#16) = true := by decide

/-- C14. -/
theorem test_seImm_goes_on :
    nextHas (run 0x3199 (start [(1, 0x98#8)])) (fun t => advancedTo t 0x0202#16) = true := by decide

/-- C15. -/
theorem test_sneImm_goes_on :
    nextHas (run 0x4199 (start [(1, 0x99#8)])) (fun t => advancedTo t 0x0202#16) = true := by decide

/-- C16. -/
theorem test_sneImm_skips :
    nextHas (run 0x4199 (start [(1, 0x00#8)])) (fun t => advancedTo t 0x0204#16) = true := by decide

/-- C19. -/
theorem test_seReg_skips :
    nextHas (run 0x5127 (start [(1, 7#8), (2, 7#8)])) (fun t => advancedTo t 0x0204#16) = true := by decide

/-- C18. -/
theorem test_seReg_goes_on :
    nextHas (run 0x5120 (start [(1, 7#8), (2, 8#8)])) (fun t => advancedTo t 0x0202#16) = true := by decide

/-- C23. -/
theorem test_sneReg_skips :
    nextHas (run 0x912F (start [(1, 7#8), (2, 8#8)])) (fun t => advancedTo t 0x0204#16) = true := by decide

/-- C22. -/
theorem test_sneReg_goes_on :
    nextHas (run 0x9120 (start [(1, 7#8), (2, 7#8)])) (fun t => advancedTo t 0x0202#16) = true := by decide

/-- C26. -/
theorem test_jpV0_uses_V0 :
    nextHas (run 0xB2FF (start [(0, 0x01#8), (2, 0x55#8)])) (fun t => advancedTo t 0x0300#16) = true := by decide

/-- C27. -/
theorem test_jpV0_past_memory :
    nextHas (run 0xBFFF (start [(0, 0xFF#8)])) (fun t => advancedTo t 0x10FE#16) = true := by decide

/-! ## Register load, arithmetic, logic, shifts -/

/-- A2. -/
theorem test_ldImm_flag_register :
    nextHas (run 0x6F07 (start [(15, 0x01#8)])) (fun t => advancedTo t 0x0202#16 && t.reg 15 == 0x07#8) = true := by decide

/-- A4. -/
theorem test_addImm_no_flag :
    nextHas (run 0x7101 (start [(1, 0xFF#8), (15, 0xAA#8)])) (fun t => advancedTo t 0x0202#16 && t.reg 1 == 0x00#8 && t.reg 15 == 0xAA#8) = true := by decide

/-- A7. -/
theorem test_ldReg :
    nextHas (run 0x8120 (start [(1, 0x01#8), (2, 0x33#8)])) (fun t => advancedTo t 0x0202#16 && t.reg 1 == 0x33#8 && t.reg 2 == 0x33#8) = true := by decide

/-- A9. -/
theorem test_or :
    nextHas (run 0x8121 (start [(1, 0xF0#8), (2, 0x0F#8), (15, 0xAA#8)])) (fun t => advancedTo t 0x0202#16 && t.reg 1 == 0xFF#8 && t.reg 15 == 0xAA#8) = true := by decide

/-- A10. -/
theorem test_and :
    nextHas (run 0x8122 (start [(1, 0xF3#8), (2, 0x3F#8), (15, 0xAA#8)])) (fun t => advancedTo t 0x0202#16 && t.reg 1 == 0x33#8 && t.reg 15 == 0xAA#8) = true := by decide

/-- A11. -/
theorem test_xor :
    nextHas (run 0x8123 (start [(1, 0xFF#8), (2, 0x0F#8), (15, 0xAA#8)])) (fun t => advancedTo t 0x0202#16 && t.reg 1 == 0xF0#8 && t.reg 15 == 0xAA#8) = true := by decide

/-- S10. -/
theorem test_addReg_carry :
    nextHas (run 0x8124 (start [(1, 0xFF#8), (2, 0x02#8)])) (fun t => advancedTo t 0x0202#16 && t.reg 1 == 0x01#8 && t.reg 15 == 0x01#8) = true := by decide

/-- A17. -/
theorem test_addReg_flag_is_destination :
    nextHas (run 0x8F14 (start [(15, 0xFF#8), (1, 0x03#8)])) (fun t => advancedTo t 0x0202#16 && t.reg 15 == 0x02#8 && t.reg 1 == 0x03#8) = true := by decide

/-- A20. -/
theorem test_sub_borrow :
    nextHas (run 0x8125 (start [(1, 0x05#8), (2, 0x07#8), (15, 0x01#8)])) (fun t => advancedTo t 0x0202#16 && t.reg 1 == 0xFE#8 && t.reg 15 == 0x00#8) = true := by decide

/-- A22. -/
theorem test_sub_equal :
    nextHas (run 0x8125 (start [(1, 0x07#8), (2, 0x07#8)])) (fun t => advancedTo t 0x0202#16 && t.reg 1 == 0x00#8 && t.reg 15 == 0x01#8) = true := by decide

/-- A30. -/
theorem test_shr_ignores_y :
    nextHas (run 0x8126 (start [(1, 0x04#8), (2, 0xFF#8), (15, 0x01#8)])) (fun t => advancedTo t 0x0202#16 && t.reg 1 == 0x02#8 && t.reg 2 == 0xFF#8 && t.reg 15 == 0x00#8) = true := by decide

/-- A34. -/
theorem test_shr_flag_is_destination :
    nextHas (run 0x8F06 (start [(15, 0x07#8)])) (fun t => advancedTo t 0x0202#16 && t.reg 15 == 0x03#8) = true := by decide

/-- A36. -/
theorem test_subn :
    nextHas (run 0x8127 (start [(1, 0x05#8), (2, 0x07#8)])) (fun t => advancedTo t 0x0202#16 && t.reg 1 == 0x02#8 && t.reg 2 == 0x07#8 && t.reg 15 == 0x01#8) = true := by decide

/-- A37. -/
theorem test_subn_borrow :
    nextHas (run 0x8127 (start [(1, 0x07#8), (2, 0x05#8), (15, 0x01#8)])) (fun t => advancedTo t 0x0202#16 && t.reg 1 == 0xFE#8 && t.reg 15 == 0x00#8) = true := by decide

/-- A43. -/
theorem test_shl_ignores_y :
    nextHas (run 0x812E (start [(1, 0x7F#8), (2, 0xFF#8), (15, 0x01#8)])) (fun t => advancedTo t 0x0202#16 && t.reg 1 == 0xFE#8 && t.reg 2 == 0xFF#8 && t.reg 15 == 0x00#8) = true := by decide

/-- A46. -/
theorem test_shl_flag_is_destination :
    nextHas (run 0x8F0E (start [(15, 0x81#8)])) (fun t => advancedTo t 0x0202#16 && t.reg 15 == 0x02#8) = true := by decide

/-! ## Index register and memory -/

/-- M1. -/
theorem test_ldI :
    nextHas (run 0xAABC (start [])) (fun t => advancedTo t 0x0202#16 && t.idx == 0x0ABC#16) = true := by decide

/-- M4. -/
theorem test_addI_wraps :
    nextHas (run 0xF11E ((start [(1, 0xFF#8)]).setIdx 0xFFFF#16)) (fun t => advancedTo t 0x0202#16 && t.idx == 0x00FE#16 && t.reg 15 == 0#8) = true := by decide

/-- M9. -/
theorem test_ldF_low_nibble :
    nextHas (run 0xF329 (start [(3, 0x1A#8)])) (fun t => advancedTo t 0x0202#16 && t.idx == 0x0032#16) = true := by decide

/-- M12. -/
theorem test_ldB :
    nextHas (run 0xFA33 (startAt 0x0300#16 [] [(10, 0x9C#8)])) (fun t => advancedTo t 0x0202#16 && bytesAt t 0x2FF 5 == [0#8, 1#8, 5#8, 6#8, 0#8] && t.idx == 0x0300#16) = true := by decide

/-- M15. -/
theorem test_ldB_no_partial_write :
    nextHas (run 0xFA33 (startAt 0x0FFE#16 [0xEE#8, 0xEE#8] [(10, 123#8)])) (fun t => faultedAt t 0x0200#16 .outOfBounds && bytesAt t 0xFFE 2 == [0xEE#8, 0xEE#8]) = true := by decide

/-- M17. -/
theorem test_stRegs :
    nextHas (run 0xF155 (startAt 0x0400#16 [] [(0, 0x11#8), (1, 0x22#8), (2, 0x33#8)])) (fun t => advancedTo t 0x0202#16 && bytesAt t 0x400 3 == [0x11#8, 0x22#8, 0x00#8] && t.idx == 0x0400#16) = true := by decide

/-- M22. -/
theorem test_stRegs_out_of_range :
    nextHas (run 0xF055 (startAt 0x1000#16 [] [(0, 0x77#8)])) (fun t => faultedAt t 0x0200#16 .outOfBounds && bytesAt t 0xFFF 2 == [0x00#8, 0x00#8]) = true := by decide

/-- M23. -/
theorem test_ldRegs :
    nextHas (run 0xF265 (startAt 0x0300#16 [1#8, 5#8, 6#8, 9#8] [(3, 0x77#8)])) (fun t => advancedTo t 0x0202#16 && t.reg 0 == 1#8 && t.reg 1 == 5#8 && t.reg 2 == 6#8 && t.reg 3 == 0x77#8 && t.idx == 0x0300#16) = true := by decide

/-- M25. -/
theorem test_ldRegs_out_of_range :
    nextHas (run 0xFF65 (startAt 0x0FF1#16 [] [(0, 0x55#8)])) (fun t => faultedAt t 0x0200#16 .outOfBounds && t.reg 0 == 0x55#8) = true := by decide

/-! ## Display -/

/-- G16. -/
theorem test_cls :
    nextHas (run 0x00E0 ((start [(15, 1#8)]).setFb (screen [(4, 3), (63, 31)]))) (fun t => advancedTo t 0x0202#16 && dark t [(4, 3), (63, 31), (0, 0)] && t.reg 15 == 1#8) = true := by decide

/-- G5. -/
theorem test_drw_wraps :
    nextHas (run 0xD011 (startAt 0x0300#16 [0xFF#8] [(0, 255#8), (1, 255#8)])) (fun t => advancedTo t 0x0202#16 && t.reg 15 == 0#8 &&
      lit t [(63, 31), (0, 31), (6, 31)] && dark t [(7, 31), (62, 31), (63, 0), (63, 30)]) = true := by decide

/-- G8. -/
theorem test_drw_collides :
    nextHas (run 0xD011 ((startAt 0x0300#16 [0xC0#8] []).setFb (screen [(0, 0)]))) (fun t => advancedTo t 0x0202#16 && t.reg 15 == 1#8 && lit t [(1, 0)] && dark t [(0, 0), (2, 0), (0, 1)]) = true := by decide

/-! ## Keypad and timers -/

/-- K3. -/
theorem test_skp_low_nibble :
    nextHas (run 0xE29E (keyHeld 10 (start [(2, 0x1A#8)]))) (fun t => advancedTo t 0x0204#16) = true := by decide

/-- K4. -/
theorem test_skp_goes_on :
    nextHas (run 0xE29E (keyHeld 1 (start [(2, 0x1A#8)]))) (fun t => advancedTo t 0x0202#16) = true := by decide

/-- K6. -/
theorem test_sknp_skips :
    nextHas (run 0xE2A1 (start [(2, 0x05#8)])) (fun t => advancedTo t 0x0204#16) = true := by decide

/-- K7. -/
theorem test_sknp_goes_on :
    nextHas (run 0xE2A1 (keyHeld 5 (start [(2, 0xF5#8)]))) (fun t => advancedTo t 0x0202#16) = true := by decide

/-- K9. -/
theorem test_ldVxK_blocks :
    nextHas (run 0xF20A ((keyHeld 3 (start [(2, 0xEE#8)])).setPc 0x020A#16)) (fun t => t.pc == 0x020A#16 && t.reply == .blocked && t.reg 2 == 0xEE#8 && t.fault == none) = true := by decide

/-- K11. -/
theorem test_ldVxK_takes_the_press :
    nextHas (run 0xFF0A (State.reset.setPress (some 15))) (fun t => advancedTo t 0x0202#16 && t.reg 15 == 0x0F#8 && t.press == none) = true := by decide

/-- K13. -/
theorem test_ldVxDt :
    nextHas (run 0xF107 ((State.reset.setDt 3#8).setSt 9#8)) (fun t => advancedTo t 0x0202#16 && t.reg 1 == 3#8 && t.dt == 3#8 && t.st == 9#8) = true := by decide

/-- K14. -/
theorem test_ldDtVx :
    nextHas (run 0xF015 ((start [(0, 3#8)]).setSt 9#8)) (fun t => advancedTo t 0x0202#16 && t.dt == 3#8 && t.st == 9#8) = true := by decide

/-- K15. -/
theorem test_ldStVx :
    nextHas (run 0xF018 ((start [(0, 2#8)]).setDt 9#8)) (fun t => advancedTo t 0x0202#16 && t.st == 2#8 && t.dt == 9#8 && soundActive t) = true := by decide

/-! ## The Cycle, the Timer Driver, the host -/

/-- H2: the word at 0x200 after reset is 0000. -/
theorem test_reset_runs_zeroed_memory :
    nextHas (step (asked [.cycle none] State.reset)) (fun t => faultedAt t 0x0200#16 .unknownInstruction) = true := by decide

/-- C30. -/
theorem test_fetch_past_the_end :
    nextHas (step (asked [.cycle none] (State.reset.setPc 0x0FFF#16))) (fun t => faultedAt t 0x0FFF#16 .outOfBounds) = true := by decide

/-- 60_exceptions.md R252: no Cycle is issued, the state stays as it is. -/
theorem test_silent_host :
    nextHas (step (start [(1, 5#8)])) (fun t => t == start [(1, 5#8)]) = true := by decide

/-- K22. -/
theorem test_tick_of_a_halted_core :
    nextHas (step ((asked [.tick] (State.reset.setDt 2#8)).setFault (some .unknownInstruction))) (fun t => t.dt == 1#8 && t.fault == some .unknownInstruction && t.pc == 0x0200#16) = true := by decide

/-- K12. -/
theorem test_press_is_lost :
    nextHas (step ((asked [.cycle (some 4)] State.reset).withFetchWord 16 0x6000)) (fun t => advancedTo t 0x0202#16 && t.reg 0 == 0#8 && t.press == none) = true := by decide

/-- H1. -/
theorem test_reset_of_a_halted_core :
    nextHas (step ((asked [.reset] (start [(1, 5#8)])).setFault (some .stackOverflow))) (fun t => t.fault == none && t.reg 1 == 0#8 && t.pc == 0x0200#16) = true := by decide

/-- H5. -/
theorem test_load_program :
    nextHas (step (asked [.loadProgram [0x12#8, 0x00#8]] State.reset)) (fun t => t.reply == .ok && bytesAt t 0x1FF 4 == [0#8, 0x12#8, 0x00#8, 0#8] && fetch t == some 0x1200#16) = true := by decide

/-- 20_memory.md R77: the run passes 4095. -/
theorem test_preload_out_of_range :
    nextHas (step (asked [.preload 0xFFF [1#8, 1#8]] State.reset)) (fun t => t.reply == .outOfBounds && t.mem == [] && t.fault == none) = true := by decide

/-- 20_memory.md R76 with U16: no load once a Cycle has run. -/
theorem test_load_after_the_first_cycle :
    (match step (asked [.loadProgram []] State.reset.endCycle) with | .refused .hostLoadDuringRun => true | _ => false) = true := by decide

/-- 70 R293: dbg_data is 16 bits wide; 20_memory.md R78. -/
theorem test_hostRead_selects :
    (match hostRead .regs 15 (start [(15, 0xAB#8)]), hostRead .pc 0 State.reset, hostRead .sp 0 (stacked 16 0x0206#16 State.reset),
        hostRead .stack 15 (stacked 16 0x0206#16 State.reset), hostRead .mem 0xFFF (startAt 0x0FFF#16 [0xCD#8] []) with
      | .ok v, .ok pc, .ok sp, .ok e, .ok b => v == 0x00AB#16 && pc == 0x0200#16 && sp == 16#16 && e == 0x0206#16 && b == 0x00CD#16
      | _, _, _, _, _ => false) = true := by decide

/-- 20_memory.md R78. -/
theorem test_hostRead_out_of_range :
    (match hostRead .mem 0x1000 State.reset with | .error .outOfBounds => true | _ => false) = true := by decide

/-- The canonical form of the model (log entry 31). -/
theorem test_memory_canonical :
    Memory.wf [(0x300, 1#8), (0x301, 5#8)] = true ∧ Memory.wf [(0x301, 5#8), (0x300, 1#8)] = false ∧
      Memory.wf [(0x300, 0#8)] = false ∧ Memory.wf [(0x1000, 1#8)] = false ∧
      Memory.write [(0x300, 1#8), (0x301, 5#8)] 0x300 0#8 = [(0x301, 5#8)] := by decide

/-! ## Witnesses: states and operands that meet the hypotheses of the statements, clause by clause -/

theorem witness_DecodeOfEncodeIsIdentity :
    (Instr.sys 0xFFF#12).wf = true ∧ (Instr.unknown 0xFFFF#16).wf = true ∧ (Instr.drw 15 0 15).wf = true := by decide

theorem witness_UnknownIsTheUndefinedClass :
    unknownWord 0xC000#16 = true ∧ decodeWord 0xC000#16 = .unknown 0xC000#16 ∧ decodeWord 0x00EF#16 = .sys 0x0EF#12 := by decide

theorem witness_CallPushesAndJumps :
    State.reset.sp.val ≠ 16 ∧ (stacked 15 0#16 State.reset).sp.val ≠ 16 ∧ (stacked 16 0#16 State.reset).sp.val = 16 := by decide

theorem witness_ReturnPopsPc :
    (stacked 1 0#16 State.reset).sp.val = (0 : Fin 16).val + 1 ∧ (stacked 16 0#16 State.reset).sp.val = (15 : Fin 16).val + 1 ∧
      State.reset.sp.val = 0 := by decide

theorem witness_CallThenReturnResumes :
    ∃ t, (stacked 15 0#16 State.reset).sp.val ≠ 16 ∧ exec (.call 0x300#12) (stacked 15 0#16 State.reset) = .next t ∧
      t.sp = t.sp ∧ t.stack = t.stack := ⟨_, by decide, rfl, rfl, rfl⟩

theorem witness_SkipOnImmediate :
    (start [(1, 0x99#8)]).reg 1 = 0x99#8 ∧ (start [(1, 0x98#8)]).reg 1 ≠ 0x99#8 := by decide

theorem witness_SkipOnRegisters :
    (start [(1, 7#8), (2, 7#8)]).reg 1 = (start [(1, 7#8), (2, 7#8)]).reg 2 ∧
      (start [(1, 7#8), (2, 8#8)]).reg 1 ≠ (start [(1, 7#8), (2, 8#8)]).reg 2 := by decide

theorem witness_UnknownWordFaults : unknownWord 0xC000#16 = true ∧ unknownWord 0xFFFF#16 = true := by decide

theorem witness_SysFaults : (0x0E1#12 : Addr12) ≠ 0x0E0#12 ∧ (0x0E1#12 : Addr12) ≠ 0x0EE#12 := by decide

/-- Sums of 255 and 256: the two sides of the carry. -/
theorem witness_AddSetsCarry :
    (1 : RegIdx) ≠ 15 ∧ ((start [(1, 0xFF#8)]).reg 1).toNat + ((start [(1, 0xFF#8)]).reg 2).toNat = 255 ∧
      ((start [(1, 0xFF#8), (2, 1#8)]).reg 1).toNat + ((start [(1, 0xFF#8), (2, 1#8)]).reg 2).toNat = 256 := by decide

/-- Equal operands and one less: the two sides of the borrow. -/
theorem witness_SubtractSetsNoBorrow :
    (1 : RegIdx) ≠ 15 ∧ ((start [(1, 7#8), (2, 7#8)]).reg 1).toNat ≥ ((start [(1, 7#8), (2, 7#8)]).reg 2).toNat ∧
      ¬ ((start [(1, 6#8), (2, 7#8)]).reg 1).toNat ≥ ((start [(1, 6#8), (2, 7#8)]).reg 2).toNat := by decide

theorem witness_ShiftsSetBitShiftedOut : (1 : RegIdx) ≠ 15 ∧ ((start [(1, 0x81#8)]).reg 1).toNat % 2 = 1 ∧
    ((start [(1, 0x81#8)]).reg 1).toNat / 128 = 1 := by decide

theorem witness_BcdStoreWritesDigits :
    (startAt 0x0FFD#16 [] []).mem.wf = true ∧ (startAt 0x0FFD#16 [] []).idx.toNat + 2 = 4095 ∧
      (startAt 0x0FFE#16 [0xEE#8, 0xEE#8] []).mem.wf = true ∧ (startAt 0x0FFE#16 [0xEE#8, 0xEE#8] []).idx.toNat + 2 = 4096 := by decide

theorem witness_RegisterDumpWritesMemory :
    (startAt 0x0FF0#16 [] []).mem.wf = true ∧ (startAt 0x0FF0#16 [] []).idx.toNat + (15 : RegIdx).val = 4095 ∧
      (15 : RegIdx) ≤ 15 ∧ (startAt 0x0FF1#16 [] []).idx.toNat + (15 : RegIdx).val = 4096 := by decide

theorem witness_RegisterLoadReadsMemory :
    ∃ t, (startAt 0x0FF0#16 [] [(0, 1#8)]).mem.wf = true ∧ (startAt 0x0FF0#16 [] [(0, 1#8)]).idx.toNat + (15 : RegIdx).val = 4095 ∧
      exec (.stRegs 15) (startAt 0x0FF0#16 [] [(0, 1#8)]) = .next t ∧ t.mem = t.mem ∧
      t.idx = (startAt 0x0FF0#16 [] [(0, 1#8)]).idx ∧ (startAt 0x0FF1#16 [] []).idx.toNat + (15 : RegIdx).val = 4096 :=
  ⟨_, by decide, by decide, rfl, rfl, rfl, by decide⟩

/-- The screen and sprite of G8: (0, 0) is on, the sprite's row is 1100 0000. -/
def drawState : State := (startAt 0x0300#16 [0xC0#8] []).setFb (screen [(0, 0)])

theorem under_drawState : UnderSprite drawState 0 1 1 0 0 ∧ UnderSprite drawState 0 1 1 1 0 :=
  ⟨⟨0, 0, by decide⟩, ⟨0, 1, by decide⟩⟩

theorem not_under_drawState : ¬ UnderSprite drawState 0 1 1 2 0 := by
  rintro ⟨row, col, hr, hc, hx, hy, hb⟩
  obtain rfl : row = 0 := by omega
  have h0 : (drawState.reg 0).toNat = 0 := by decide
  have h2 : ((2 : Fin 64).val) = 2 := rfl
  obtain rfl : col = 2 := by omega
  exact absurd hb (by decide)

theorem witness_DrawInvertsExactlyTheSprite :
    (((0 : Fin 16).val = 0 ∨ (State.reset.setIdx 0xFFFF#16).idx.toNat + (0 : Fin 16).val ≤ 4096) ∧
      (State.reset.setIdx 0x0FF1#16).idx.toNat + (15 : Fin 16).val = 4096 ∧ drawState.idx.toNat + (1 : Fin 16).val ≤ 4096) ∧
    (∃ px py, UnderSprite drawState 0 1 1 px py ∧ drawState.fb.pixel px py = true) ∧
    (¬ UnderSprite drawState 0 1 1 2 0) ∧
    (¬ ∃ px py, UnderSprite drawState 0 1 0 px py ∧ drawState.fb.pixel px py = true) :=
  ⟨by decide, ⟨0, 0, under_drawState.1, by decide⟩, not_under_drawState, by rintro ⟨_, _, ⟨row, _, h, _⟩, _⟩; omega⟩

theorem witness_DrawOutOfRangeFaults :
    ((1 : Fin 16).val > 0 ∧ (State.reset.setIdx 0x1000#16).idx.toNat + (1 : Fin 16).val - 1 = 4096) ∧
      ((15 : Fin 16).val > 0 ∧ (State.reset.setIdx 0x0FF2#16).idx.toNat + (15 : Fin 16).val - 1 = 4096) := by decide

/-- Two draws in a row; of the pixels under the sprite (1, 0) is off before the first, and with no row there is none. -/
theorem witness_DoubleDrawRestoresScreen :
    (0 : RegIdx) ≠ 15 ∧ (1 : RegIdx) ≠ 15 ∧ ((1 : Fin 16).val = 0 ∨ drawState.idx.toNat + (1 : Fin 16).val ≤ 4096) ∧
      (∃ t u, exec (.drw 0 1 1) drawState = .next t ∧ exec (.drw 0 1 1) t = .next u) ∧
      (∃ t u, exec (.drw 0 1 0) drawState = .next t ∧ exec (.drw 0 1 0) t = .next u) ∧
      (∃ px py, UnderSprite drawState 0 1 1 px py ∧ drawState.fb.pixel px py = false) ∧
      (¬ ∃ px py, UnderSprite drawState 0 1 0 px py ∧ drawState.fb.pixel px py = false) :=
  ⟨by decide, by decide, by decide, ⟨_, _, rfl, rfl⟩, ⟨_, _, rfl, rfl⟩, ⟨1, 0, under_drawState.2, by decide⟩,
    by rintro ⟨_, _, ⟨row, _, h, _⟩, _⟩; omega⟩

theorem witness_SkipOnKeyState :
    (10 : Key).val = ((keyHeld 10 (start [(2, 0x1A#8)])).reg 2).toNat % 16 ∧ (keyHeld 10 (start [(2, 0x1A#8)])).keys[10] = true ∧
      (15 : Key).val = ((start [(2, 0xFF#8)]).reg 2).toNat % 16 ∧ (start [(2, 0xFF#8)]).keys[15] = false := by decide

theorem witness_KeyWaitStoresPressOrBlocks :
    (State.reset.setPress (some 15)).press = some 15 ∧ State.reset.press = none := by decide

theorem witness_BlockedCoreStaysBlocked :
    BlockedOnKey (asked [.cycle none, .tick] (State.reset.placeWord 0xF20A#16)) ∧
      (asked [.cycle none, .tick] (State.reset.placeWord 0xF20A#16)).pending = [.cycle none, .tick] ∧
      (∀ r ∈ [Request.cycle none, Request.tick], r = .cycle none ∨ r = .tick) :=
  ⟨⟨rfl, 0xF20A#16, 2, by decide, by decide⟩, rfl, by decide⟩

theorem witness_TickDecrementsNonzeroTimers :
    (asked [.tick] (State.reset.setDt 1#8)).nextRequest = some .tick ∧ (asked [.tick] (State.reset.setDt 1#8)).dt ≠ 0x00#8 ∧
      (asked [.tick] (State.reset.setDt 1#8)).st = 0x00#8 ∧ (asked [.tick] (State.reset.setSt 255#8)).st ≠ 0x00#8 ∧
      (asked [.tick] (State.reset.setSt 255#8)).dt = 0x00#8 := by decide

theorem witness_TicksCountDownToZero :
    (asked [.tick, .tick, .tick, .reset] (State.reset.setDt 2#8)).pending = List.replicate 3 .tick ++ [.reset] := by decide

theorem witness_StepRunsDecodedInstruction :
    (asked [.cycle none] (State.reset.setPc 0x0FFE#16)).nextRequest = some (.cycle none) ∧ (asked [.cycle none] (State.reset.setPc 0x0FFE#16)).fault = none ∧
      (asked [.cycle none] (State.reset.setPc 0x0FFE#16)).pc.toNat + 1 = 4095 := by decide

theorem witness_PlacedWordRunsNext :
    State.reset.mem.wf = true ∧ decodeTableWord 16 0x8124 = some (.addReg 1 2) := by decide

theorem witness_FetchOutOfRangeFaults :
    (asked [.cycle none] (State.reset.setPc 0x0FFF#16)).nextRequest = some (.cycle none) ∧ (asked [.cycle none] (State.reset.setPc 0x0FFF#16)).fault = none ∧
      (asked [.cycle none] (State.reset.setPc 0x0FFF#16)).pc.toNat + 1 = 4096 := by decide

theorem witness_HaltedCycleReportsSameFault :
    (asked [.cycle none] (State.reset.setFault (some .stackOverflow))).nextRequest = some (.cycle none) ∧
      (asked [.cycle none] (State.reset.setFault (some .stackOverflow))).fault = some .stackOverflow := by decide

theorem witness_CycleHasOneOfThreeOutcomes : (asked [.cycle (some 7)] State.reset).nextRequest = some (.cycle (some 7)) := by decide

/-- P6 with the run one byte earlier: FX55 at 0x206 stores at 0x207 to 0x209, over its own second byte and the next word. -/
def dumpState : State := (startAt 0x0207#16 [] [(0, 1#8), (1, 0x6A#8), (2, 0x55#8)]).setPc 0x0206#16

/-- FX33 at 0xFFC stores up to the last byte; the next word is the last one in range. -/
def digitsState : State := (startAt 0x0FFD#16 [] [(0, 123#8)]).setPc 0x0FFC#16

theorem witness_StoreIsSeenByNextFetch :
    (∃ t, dumpState.mem.wf = true ∧ t.reply = .advanced ∧ t.pc.toNat + 1 ≤ 4095 ∧ exec (.stRegs 2) dumpState = .next t ∧
      (1 : RegIdx) ≤ 2 ∧ effAddr dumpState (1 : RegIdx).val = t.pc.toNat) ∧
    (∃ t, digitsState.mem.wf = true ∧ t.reply = .advanced ∧ t.pc.toNat + 1 = 4095 ∧ exec (.ldB 0) digitsState = .next t ∧
      effAddr digitsState 1 = t.pc.toNat) :=
  ⟨⟨_, by decide, rfl, by decide, rfl, by decide, by decide⟩, ⟨_, by decide, rfl, by decide, rfl, by decide⟩⟩

theorem witness_EndOfRunIsStable :
    EndOfRun (State.reset.placeWord 0x1200#16) ∧ (State.reset.placeWord 0x1200#16).nextRequest = some (.cycle none) :=
  ⟨⟨rfl, 0x1200#16, 0x200#12, by decide, by decide, by decide⟩, by decide⟩

theorem witness_FaultLeavesNoPartialEffect :
    ∃ t, exec .ret State.reset = .next t ∧ t.fault ≠ State.reset.fault := ⟨_, rfl, by decide⟩

theorem witness_EveryFaultHasItsCause :
    State.reset.fault = none ∧ faultCause .ret State.reset = some .stackUnderflow ∧
      faultCause (.ldB 0) (State.reset.setIdx 0x0FFD#16) = none ∧
      faultCause (.ldB 0) (State.reset.setIdx 0x0FFE#16) = some .outOfBounds := by decide

theorem witness_InstructionsWriteOnlyTheirRow : ∃ t, exec (.ldRegs 3) State.reset = .next t := ⟨_, rfl⟩

theorem witness_InputsReachOnlyTheirReaders :
    (∀ x, Instr.cls ≠ .ldVxK x) ∧ (∀ x, Instr.cls ≠ .skp x ∧ Instr.cls ≠ .sknp x) := by
  constructor <;> intro x <;> simp

theorem witness_TimersAreReadOnlyByFx07 :
    (∀ x, Instr.cls ≠ .ldStVx x) ∧ (∀ x, Instr.cls ≠ .ldDtVx x ∧ Instr.cls ≠ .ldVxDt x) := by
  constructor <;> intro x <;> simp

theorem full_stack_at_bound : ∀ k : Fin 16, (Vector.replicate 16 0x1000#16)[k.val].toNat ≤ 4096 := by decide

/-- A state that meets the invariant with a full stack and `pc` at its bound, and steps. -/
theorem witness_StepKeepsInvariant :
    ∃ t, Inv (asked [.cycle none] ((stacked 16 0x1000#16 State.reset).setPc 0x10FE#16)) ∧
      step (asked [.cycle none] ((stacked 16 0x1000#16 State.reset).setPc 0x10FE#16)) = .next t := by
  exact ⟨_, ⟨by decide, by decide, fun k _ => full_stack_at_bound k⟩, rfl⟩

theorem witness_ResetRequestResetsEveryState :
    ((asked [.reset] (start [(1, 5#8)])).setFault (some .stackOverflow)).nextRequest = some .reset := by decide

theorem witness_LoadProgramPlacesImage :
    (asked [.loadProgram (List.replicate 3584 1#8)] State.reset).mem.wf = true ∧
      (asked [.loadProgram (List.replicate 3584 1#8)] State.reset).nextRequest = some (.loadProgram (List.replicate 3584 1#8)) ∧
      (asked [.loadProgram (List.replicate 3584 1#8)] State.reset).started = false ∧
      (List.replicate 3584 1#8).length ≤ 3584 ∧ (List.replicate 3585 1#8).length > 3584 ∧
      (asked [.loadProgram (List.replicate 3585 1#8)] State.reset).nextRequest = some (.loadProgram (List.replicate 3585 1#8)) ∧
      (asked [.loadProgram []] State.reset.endCycle).started = true :=
  ⟨rfl, rfl, rfl, Nat.le_of_eq List.length_replicate, by rw [List.length_replicate]; omega, rfl, rfl⟩

theorem witness_PreloadPlacesBytes :
    (asked [.preload 0xFFF [1#8]] State.reset).mem.wf = true ∧
      (asked [.preload 0xFFF [1#8]] State.reset).nextRequest = some (.preload 0xFFF [1#8]) ∧
      (asked [.preload 0xFFF [1#8]] State.reset).started = false ∧ 0xFFF + [1#8].length - 1 = 4095 ∧
      ([] : List Byte).length = 0 ∧ 0 < [1#8, 1#8].length ∧ 0xFFF + [1#8, 1#8].length - 1 = 4096 ∧
      (asked [.preload 0 [1#8]] State.reset.endCycle).nextRequest = some (.preload 0 [1#8]) ∧
      (asked [.preload 0 [1#8]] State.reset.endCycle).started = true := by decide

theorem witness_HostWritesKeyStates :
    (asked [.setKeys (Vector.replicate 16 true)] State.reset).nextRequest = some (.setKeys (Vector.replicate 16 true)) := by decide

theorem witness_HostReadPortAnswersState : (4095 : Nat) ≤ 4095 ∧ (16 : Nat) ≥ 16 ∧ (4096 : Nat) > 4095 := by decide

/-- Two states that differ in the key states and the answer only: the ports do not show these. -/
theorem witness_HostReadPortsSeeWholeState :
    State.reset.mem.wf = true ∧ ((keyHeld 3 State.reset).setReply .ok).mem.wf = true ∧
      (∀ sel addr, hostRead sel addr ((keyHeld 3 State.reset).setReply .ok) = hostRead sel addr State.reset) ∧
      (∀ x y, hostReadPixel ((keyHeld 3 State.reset).setReply .ok) x y = hostReadPixel State.reset x y) ∧
      faultKind ((keyHeld 3 State.reset).setReply .ok) = faultKind State.reset :=
  ⟨rfl, rfl, fun sel _ => by cases sel <;> rfl, fun _ _ => rfl, rfl⟩

/-- A run of one Tick, after which nothing is pending; and a state with nothing pending at all. -/
theorem witness_SilentHostLeavesState :
    (∃ t, stepN 1 (asked [.tick] State.reset) = .next t ∧ t.pending = []) ∧
      (∃ t, stepN 0 State.reset = .next t ∧ t.pending = []) := ⟨⟨_, rfl, rfl⟩, ⟨_, rfl, rfl⟩⟩

end Sys2Proof.Tests
end

section
/-! The control transfers that leave everything but `pc` alone: the jump and the skips on an immediate
(40_cycle_and_control.md R124, R126, R127). -/

namespace Sys2Proof.Machine

/-! ## How each of them ends -/

/-- Every jump and every skip ends this way; only the target differs. -/
theorem completeAt_sets_only_pc (target : Word) (s : State) :
    ∃ t, completeAt target s = .next t ∧ t.pc = target ∧ t.reply = .advanced ∧ Keeps {} s t :=
  ⟨(s.setPc target).setReply .advanced, rfl, rfl, rfl, (Keeps.refl {} s).complete target⟩

/-- A skip (R121) whose test `c` decides between `p` and `q`. -/
theorem skipIf_sets_only_pc {c : Bool} {p q : Prop} (taken : p → c = true) (notTaken : q → c = false) (s : State) :
    ∃ t, skipIf c s = .next t ∧ (p → t.pc = s.pc + 4) ∧ (q → t.pc = s.pc + 2) ∧ t.reply = .advanced ∧ Keeps {} s t := by
  obtain ⟨t, hnext, hpc, hreply, hkeeps⟩ := completeAt_sets_only_pc (if c then s.pc + 4 else s.pc + 2) s
  refine ⟨t, hnext, fun hp => ?_, fun hq => ?_, hreply, hkeeps⟩
  · simpa [taken hp] using hpc
  · simpa [notTaken hq] using hpc

theorem exec_jp (nnn : Addr12) (s : State) : exec (.jp nnn) s = completeAt (addr16 nnn) s := rfl

theorem exec_seImm (x : RegIdx) (nn : Byte) (s : State) : exec (.seImm x nn) s = skipIf (s.reg x == nn) s := rfl

theorem exec_sneImm (x : RegIdx) (nn : Byte) (s : State) : exec (.sneImm x nn) s = skipIf (s.reg x != nn) s := rfl

/-! ## The statements -/

/-- Settles O6: JP completes at its zero-extended operand, whose value is NNN. -/
theorem jumpSetsPc : Obligations.JumpSetsPc := by
  unfold Obligations.JumpSetsPc
  intro nnn s
  obtain ⟨t, hnext, hpc, hreply, hkeeps⟩ := completeAt_sets_only_pc (addr16 nnn) s
  have htarget : t.pc.toNat = nnn.toNat := by rw [hpc, toNat_addr16]
  exact ⟨Laws.RoundTrip.jp nnn rfl, t, (exec_jp nnn s).trans hnext, htarget, hreply, hkeeps⟩

/-- Settles O10: each skip is `skipIf` on its own comparison of VX with NN. -/
theorem skipOnImmediate : Obligations.SkipOnImmediate := by
  unfold Obligations.SkipOnImmediate
  intro x nn s
  refine ⟨Laws.RoundTrip.seImm x nn rfl, Laws.RoundTrip.sneImm x nn rfl, ?_, ?_⟩
  · rw [exec_seImm]
    exact skipIf_sets_only_pc beq_iff_eq.mpr beq_eq_false_iff_ne.mpr s
  · rw [exec_sneImm]
    exact skipIf_sets_only_pc bne_iff_ne.mpr bne_eq_false_iff_eq.mpr s

end Sys2Proof.Machine
end

section
/-! The stores and the load at the index register: the decimal digits, the register dump and the register load
(42_index_memory.md R183 to R185). -/

namespace Sys2Proof.Machine

/-! ## The bounds check at the index register -/

theorem runInRange_effAddr {s : State} {n : Nat} (h : s.idx.toNat + n ≤ 4095) :
    runInRange (effAddr s 0) (n + 1) = true := by
  rw [runInRange_iff, effAddr_zero]
  omega

theorem runInRange_effAddr_false {s : State} {n : Nat} (h : s.idx.toNat + n > 4095) :
    runInRange (effAddr s 0) (n + 1) = false := by
  rw [runInRange_false_iff, effAddr_zero]
  omega

theorem effAddr_congr {s u : State} (h : u.idx = s.idx) (k : Nat) : effAddr u k = effAddr s k := by
  simp only [effAddr, h]

/-! ## How each of them ends -/

/-- Every fault of an instruction ends this way; only the kind differs (60_exceptions.md R241, R242). -/
theorem raise_sets_only_latch (f : Fault) (s : State) :
    ∃ t, raise f s = .next t ∧ t.reply = .fault f ∧ t.pc = s.pc ∧ Keeps { fault := True } s t :=
  ⟨_, raise_eq f s, rfl, rfl, keeps_raise f s⟩

/-- An instruction that stores a run of bytes from `I` on, once its bounds check has passed. -/
theorem advance_writeRun_stores_bytes {s : State} {bytes : List Byte} (hwf : s.mem.wf = true)
    (hrange : runInRange (effAddr s 0) bytes.length = true) :
    ∃ t, advance (s.setMem (s.mem.writeRun (effAddr s 0) bytes)) = .next t ∧
      (∀ k (hk : k < bytes.length), t.mem.read (effAddr s k) = bytes[k]) ∧
      t.pc = s.pc + 2 ∧ t.reply = .advanced ∧
      Keeps { byte := fun a => effAddr s 0 ≤ a ∧ a < effAddr s bytes.length } s t := by
  refine ⟨_, advance_eq _, fun k hk => ?_, rfl, rfl, ?_⟩
  · have hfits : effAddr s 0 + bytes.length ≤ 4096 := by
      rw [runInRange_iff] at hrange
      omega
    exact Memory.read_writeRun_inside (effAddr s 0) bytes hwf hfits k hk
  · refine Keeps.complete (Keeps.writeRun (Keeps.refl _ s) (effAddr s 0) bytes fun _ hlow hhigh => ?_) _
    exact ⟨hlow, hhigh⟩

/-- The decimal digits (R183) in range; each is below 256, so the byte stored has it as its value. -/
theorem exec_ldB_stores_digits {x : RegIdx} {s : State} (hwf : s.mem.wf = true) (h : s.idx.toNat + 2 ≤ 4095) :
    ∃ t, exec (.ldB x) s = .next t ∧
      (t.mem.read (effAddr s 0)).toNat = (s.reg x).toNat / 100 ∧
      (t.mem.read (effAddr s 1)).toNat = (s.reg x).toNat / 10 % 10 ∧
      (t.mem.read (effAddr s 2)).toNat = (s.reg x).toNat % 10 ∧
      t.pc = s.pc + 2 ∧ t.reply = .advanced ∧
      Keeps { byte := fun a => effAddr s 0 ≤ a ∧ a < effAddr s 3 } s t := by
  have hrange := runInRange_effAddr h
  obtain ⟨t, hnext, hbytes, hend⟩ := advance_writeRun_stores_bytes (bytes := bcdDigits (s.reg x)) hwf hrange
  have hbyte := (s.reg x).isLt
  refine ⟨t, (exec_ldB_inRange hrange).trans hnext, ?_, ?_, ?_, hend⟩
  · rw [hbytes 0 (by simp)]
    exact Nat.mod_eq_of_lt (by omega)
  · rw [hbytes 1 (by simp)]
    exact Nat.mod_eq_of_lt (by omega)
  · rw [hbytes 2 (by simp)]
    exact Nat.mod_eq_of_lt (by omega)

/-- The dump (R184) in range. -/
theorem exec_stRegs_dumps {x : RegIdx} {s : State} (hwf : s.mem.wf = true) (h : s.idx.toNat + x.val ≤ 4095) :
    ∃ t, exec (.stRegs x) s = .next t ∧ (∀ k : RegIdx, k ≤ x → t.mem.read (effAddr s k.val) = s.reg k) ∧
      t.pc = s.pc + 2 ∧ t.reply = .advanced ∧
      Keeps { byte := fun a => effAddr s 0 ≤ a ∧ a < effAddr s (x.val + 1) } s t := by
  have hrange := runInRange_effAddr h
  rw [exec_stRegs_inRange hrange]
  rw [← length_regsUpTo s x] at hrange ⊢
  obtain ⟨t, hnext, hbytes, hend⟩ := advance_writeRun_stores_bytes hwf hrange
  refine ⟨t, hnext, fun k hk => ?_, hend⟩
  have hlen : k.val < (regsUpTo s x).length := by
    rw [length_regsUpTo]
    exact Nat.lt_succ_of_le hk
  rw [hbytes k.val hlen, getElem_regsUpTo]

/-- The load (R185) in range. -/
theorem exec_ldRegs_loads {x : RegIdx} {s : State} (h : s.idx.toNat + x.val ≤ 4095) :
    ∃ t, exec (.ldRegs x) s = .next t ∧ (∀ k : RegIdx, k ≤ x → t.reg k = s.mem.read (effAddr s k.val)) ∧
      t.pc = s.pc + 2 ∧ t.reply = .advanced ∧ Keeps { reg := fun r => r ≤ x } s t := by
  rw [exec_ldRegs_inRange (runInRange_effAddr h)]
  refine ⟨_, advance_eq _, fun k hk => ?_, rfl, rfl, ?_⟩
  · exact (reg_loadRegs s s.mem (effAddr s 0) (x.val + 1) k).trans (if_pos (Nat.lt_succ_of_le hk))
  · exact ((Keeps.refl _ s).loadRegs s.mem _ _ fun _ hr => Nat.le_of_lt_succ hr).complete _

/-- The round-trip law (R185): whatever the registers hold by then, a load where a dump wrote gives them back. -/
theorem exec_ldRegs_undoes_stRegs {x : RegIdx} {s t u : State} (hwf : s.mem.wf = true)
    (h : s.idx.toNat + x.val ≤ 4095) (hdump : exec (.stRegs x) s = .next t) (hmem : u.mem = t.mem)
    (hidx : u.idx = s.idx) : ∃ v, exec (.ldRegs x) u = .next v ∧ ∀ k : RegIdx, k ≤ x → v.reg k = s.reg k := by
  obtain ⟨t', hdump', hstored, -⟩ := exec_stRegs_dumps hwf h
  obtain rfl : t = t' := by simpa [hdump] using hdump'
  obtain ⟨v, hload, hloaded, -⟩ := exec_ldRegs_loads (s := u) (x := x) (by rwa [hidx])
  refine ⟨v, hload, fun k hk => ?_⟩
  calc v.reg k = u.mem.read (effAddr u k.val) := hloaded k hk
    _ = t.mem.read (effAddr s k.val) := by rw [hmem, effAddr_congr hidx]
    _ = s.reg k := hstored k hk

/-! ## The statements -/

/-- Settles O23: LD B stores the run `bcdDigits`, and faults exactly when that run leaves memory. -/
theorem bcdStoreWritesDigits : Obligations.BcdStoreWritesDigits := by
  unfold Obligations.BcdStoreWritesDigits
  intro x s hwf
  refine ⟨Laws.RoundTrip.ldB x rfl, exec_ldB_stores_digits hwf, fun h => ?_⟩
  rw [exec_ldB_outOfRange (runInRange_effAddr_false h)]
  exact raise_sets_only_latch .outOfBounds s

/-- Settles O24: the dump stores the run `regsUpTo`, and faults exactly when that run leaves memory. -/
theorem registerDumpWritesMemory : Obligations.RegisterDumpWritesMemory := by
  unfold Obligations.RegisterDumpWritesMemory
  intro x s hwf
  refine ⟨Laws.RoundTrip.stRegs x rfl, exec_stRegs_dumps hwf, fun h => ?_⟩
  rw [exec_stRegs_outOfRange (runInRange_effAddr_false h)]
  exact raise_sets_only_latch .outOfBounds s

/-- Settles O25: the load register by register, its fault, and the round trip through the dump. -/
theorem registerLoadReadsMemory : Obligations.RegisterLoadReadsMemory := by
  unfold Obligations.RegisterLoadReadsMemory
  intro x s
  refine ⟨Laws.RoundTrip.ldRegs x rfl, exec_ldRegs_loads, fun h => ?_, fun hwf h t u => exec_ldRegs_undoes_stRegs hwf h⟩
  rw [exec_ldRegs_outOfRange (runInRange_effAddr_false h)]
  exact raise_sets_only_latch .outOfBounds s

end Sys2Proof.Machine
end

section
/-! The wait for a key press (44_keypad_timers.md R219). -/

namespace Sys2Proof.Machine

/-! ## How it ends, with a press and without one -/

theorem exec_ldVxK_of_press {x : RegIdx} {s : State} {k : Key} (h : s.press = some k) :
    exec (.ldVxK x) s = advance (s.setReg x (BitVec.ofNat 8 k.val)) := by
  simp only [exec, execLdVxK, h]

/-- The key states are not looked at (10_state.md R27). -/
theorem exec_ldVxK_of_no_press {x : RegIdx} {s : State} (h : s.press = none) : exec (.ldVxK x) s = block s := by
  simp only [exec, execLdVxK, h]

/-- Every instruction that writes one register and goes on ends this way; only the value differs. -/
theorem advance_setReg_sets_only_reg (x : RegIdx) (v : Byte) (s : State) :
    ∃ t, advance (s.setReg x v) = .next t ∧ t.reg x = v ∧ t.pc = s.pc + 2 ∧ t.reply = .advanced ∧
      Keeps { reg := fun r => r = x } s t :=
  ⟨_, advance_eq _, State.reg_setReg_same s x v, rfl, rfl, ((Keeps.refl _ s).setReg x v rfl).complete _⟩

/-- A Blocked Cycle writes nothing but its answer. -/
theorem block_sets_nothing (s : State) : ∃ t, block s = .next t ∧ t.pc = s.pc ∧ t.reply = .blocked ∧ Keeps {} s t :=
  ⟨_, block_eq s, rfl, rfl, (Keeps.refl _ s).setReply _⟩

theorem toNat_ofNat_key (k : Key) : (BitVec.ofNat 8 k.val).toNat = k.val :=
  Nat.mod_eq_of_lt (by omega)

/-! ## The statement -/

/-- Settles O31: with a press LD VX,K writes the key's index, which fits a byte, into VX and advances; with none it blocks. -/
theorem keyWaitStoresPressOrBlocks : Obligations.KeyWaitStoresPressOrBlocks := by
  unfold Obligations.KeyWaitStoresPressOrBlocks
  intro x s
  refine ⟨Laws.RoundTrip.ldVxK x rfl, fun k hpress => ?_, fun hpress => ?_⟩
  · obtain ⟨t, hnext, hreg, hend⟩ := advance_setReg_sets_only_reg x (BitVec.ofNat 8 k.val) s
    have hkey : (t.reg x).toNat = k.val := by rw [hreg, toNat_ofNat_key]
    exact ⟨t, (exec_ldVxK_of_press hpress).trans hnext, hkey, hend⟩
  · rw [exec_ldVxK_of_no_press hpress]
    exact block_sets_nothing s

end Sys2Proof.Machine
end

section
/-! The decoder against the encoder and against the opcode table (30_encoding.md R95, R101, R106, R107). -/

namespace Sys2Proof

/-! ## A word and its fields -/

/-- The family RoundTrip put together: the decoder undoes the encoder. -/
theorem decodeWord_encode (i : Instr) : Laws.RoundTrip.Statement i := by
  cases i with
  | cls => exact Laws.RoundTrip.cls
  | ret => exact Laws.RoundTrip.ret
  | sys nnn => exact Laws.RoundTrip.sys nnn
  | jp nnn => exact Laws.RoundTrip.jp nnn
  | call nnn => exact Laws.RoundTrip.call nnn
  | seImm x nn => exact Laws.RoundTrip.seImm x nn
  | sneImm x nn => exact Laws.RoundTrip.sneImm x nn
  | seReg x y => exact Laws.RoundTrip.seReg x y
  | ldImm x nn => exact Laws.RoundTrip.ldImm x nn
  | addImm x nn => exact Laws.RoundTrip.addImm x nn
  | ldReg x y => exact Laws.RoundTrip.ldReg x y
  | or x y => exact Laws.RoundTrip.or x y
  | and x y => exact Laws.RoundTrip.and x y
  | xor x y => exact Laws.RoundTrip.xor x y
  | addReg x y => exact Laws.RoundTrip.addReg x y
  | sub x y => exact Laws.RoundTrip.sub x y
  | shr x y => exact Laws.RoundTrip.shr x y
  | subn x y => exact Laws.RoundTrip.subn x y
  | shl x y => exact Laws.RoundTrip.shl x y
  | sneReg x y => exact Laws.RoundTrip.sneReg x y
  | ldI nnn => exact Laws.RoundTrip.ldI nnn
  | jpV0 nnn => exact Laws.RoundTrip.jpV0 nnn
  | drw x y n => exact Laws.RoundTrip.drw x y n
  | skp x => exact Laws.RoundTrip.skp x
  | sknp x => exact Laws.RoundTrip.sknp x
  | ldVxDt x => exact Laws.RoundTrip.ldVxDt x
  | ldVxK x => exact Laws.RoundTrip.ldVxK x
  | ldDtVx x => exact Laws.RoundTrip.ldDtVx x
  | ldStVx x => exact Laws.RoundTrip.ldStVx x
  | addI x => exact Laws.RoundTrip.addI x
  | ldF x => exact Laws.RoundTrip.ldF x
  | ldB x => exact Laws.RoundTrip.ldB x
  | stRegs x => exact Laws.RoundTrip.stRegs x
  | ldRegs x => exact Laws.RoundTrip.ldRegs x
  | unknown w => exact Laws.RoundTrip.unknown w

/-- Format A puts a word's leading nibble and address back together (R92). -/
theorem formatA_fields (w : Word) : formatA (opOf w) (nnnOf w) = w := by
  apply BitVec.eq_of_toNat_eq
  rw [toNat_formatA, toNat_opOf, toNat_nnnOf]
  omega

/-- Formats I and K put a word's leading nibble, register and trailing byte back together. -/
theorem formatI_fields (w : Word) : formatI (opOf w) (xOf w) (nnOf w) = w := by
  apply BitVec.eq_of_toNat_eq
  rw [toNat_formatI, toNat_opOf, val_xOf, toNat_nnOf]
  omega

/-- Formats R and D put a word's four nibbles back together. -/
theorem formatR_fields (w : Word) : formatR (opOf w) (xOf w) (yOf w) (nOf w) = w := by
  apply BitVec.eq_of_toNat_eq
  rw [toNat_formatR, toNat_opOf, val_xOf, val_yOf, toNat_nOf]
  omega

theorem toNat_and_FFF0 (w : Word) : (w &&& 0xFFF0#16).toNat = w.toNat / 0x10 * 0x10 := by
  have hshift : w &&& 0xFFF0#16 = (w >>> 4) <<< 4 := by
    ext i hi
    interval_cases i <;> simp
  have := w.isLt
  rw [hshift, BitVec.toNat_shiftLeft, BitVec.toNat_ushiftRight, Nat.shiftLeft_eq, Nat.shiftRight_eq_div_pow]
  omega

/-- With a trailing nibble of 0 the word comes back with that nibble cleared (R107). -/
theorem formatR_fields_zero (w : Word) : formatR (opOf w) (xOf w) (yOf w) 0x0#4 = w &&& 0xFFF0#16 := by
  apply BitVec.eq_of_toNat_eq
  rw [toNat_formatR, toNat_opOf, val_xOf, val_yOf, toNat_and_FFF0]
  simp only [BitVec.toNat_ofNat]
  omega

/-! ## The UNKNOWN class in fields -/

theorem toNat_beq {n : Nat} (a b : BitVec n) : (a.toNat == b.toNat) = (a == b) := by
  rw [Bool.eq_iff_iff, beq_iff_eq, beq_iff_eq, BitVec.toNat_inj]

/-- The class of R101 in the fields of R91. -/
theorem unknownWord_eq (w : Word) :
    unknownWord w = (opOf w == 0xC#4 ||
      (opOf w == 0x8#4 && [0x8#4, 0x9#4, 0xA#4, 0xB#4, 0xC#4, 0xD#4, 0xF#4].contains (nOf w)) ||
      (opOf w == 0xE#4 && !([0x9E#8, 0xA1#8].contains (nnOf w))) ||
      (opOf w == 0xF#4 &&
        !([0x07#8, 0x0A#8, 0x15#8, 0x18#8, 0x1E#8, 0x29#8, 0x33#8, 0x55#8, 0x65#8].contains (nnOf w)))) := by
  simp only [unknownWord, ← toNat_opOf, ← toNat_nOf, ← toNat_nnOf, List.contains_cons, List.contains_nil, ← toNat_beq]
  rfl

/-- Group 8 leaves over the sub-opcodes R101 lists, and no other. -/
theorem unknownWord_of_group8 {w : Word} (h : opOf w = 0x8#4) (h0 : nOf w ≠ 0x0#4) (h1 : nOf w ≠ 0x1#4)
    (h2 : nOf w ≠ 0x2#4) (h3 : nOf w ≠ 0x3#4) (h4 : nOf w ≠ 0x4#4) (h5 : nOf w ≠ 0x5#4) (h6 : nOf w ≠ 0x6#4)
    (h7 : nOf w ≠ 0x7#4) (hE : nOf w ≠ 0xE#4) : unknownWord w = true := by
  have hrest : ∀ n : BitVec 4, n ∉ [0x0#4, 0x1#4, 0x2#4, 0x3#4, 0x4#4, 0x5#4, 0x6#4, 0x7#4, 0xE#4] →
      n ∈ [0x8#4, 0x9#4, 0xA#4, 0xB#4, 0xC#4, 0xD#4, 0xF#4] := by decide
  have hn := hrest (nOf w) (by simp [h0, h1, h2, h3, h4, h5, h6, h7, hE])
  simp [unknownWord_eq, h, hn]

theorem unknownWord_of_groupE {w : Word} (h : opOf w = 0xE#4) (h1 : nnOf w ≠ 0x9E#8) (h2 : nnOf w ≠ 0xA1#8) :
    unknownWord w = true := by
  simp [unknownWord_eq, h, h1, h2]

theorem unknownWord_of_groupF {w : Word} (h : opOf w = 0xF#4) (h1 : nnOf w ≠ 0x07#8) (h2 : nnOf w ≠ 0x0A#8)
    (h3 : nnOf w ≠ 0x15#8) (h4 : nnOf w ≠ 0x18#8) (h5 : nnOf w ≠ 0x1E#8) (h6 : nnOf w ≠ 0x29#8) (h7 : nnOf w ≠ 0x33#8)
    (h8 : nnOf w ≠ 0x55#8) (h9 : nnOf w ≠ 0x65#8) : unknownWord w = true := by
  simp [unknownWord_eq, h, h1, h2, h3, h4, h5, h6, h7, h8, h9]

/-- Of the sixteen groups, C alone has no case (R96). -/
theorem unknownWord_of_noGroup {w : Word} (h0 : opOf w ≠ 0x0#4) (h1 : opOf w ≠ 0x1#4) (h2 : opOf w ≠ 0x2#4)
    (h3 : opOf w ≠ 0x3#4) (h4 : opOf w ≠ 0x4#4) (h5 : opOf w ≠ 0x5#4) (h6 : opOf w ≠ 0x6#4) (h7 : opOf w ≠ 0x7#4)
    (h8 : opOf w ≠ 0x8#4) (h9 : opOf w ≠ 0x9#4) (hA : opOf w ≠ 0xA#4) (hB : opOf w ≠ 0xB#4) (hD : opOf w ≠ 0xD#4)
    (hE : opOf w ≠ 0xE#4) (hF : opOf w ≠ 0xF#4) : unknownWord w = true := by
  have honly : ∀ k : BitVec 4, k ∉ [0x0#4, 0x1#4, 0x2#4, 0x3#4, 0x4#4, 0x5#4, 0x6#4, 0x7#4, 0x8#4, 0x9#4, 0xA#4, 0xB#4,
      0xD#4, 0xE#4, 0xF#4] → k = 0xC#4 := by decide
  have hC : opOf w = 0xC#4 := honly _ (by simp [h0, h1, h2, h3, h4, h5, h6, h7, h8, h9, hA, hB, hD, hE, hF])
  simp [unknownWord_eq, hC]

/-! ## The three groups with a selector, and group 0 -/

theorem wf_decodeGroup0 {w : Word} (h : opOf w = 0x0#4) : (decodeGroup0 w).wf = true := by
  have hne : ∀ k : Addr12, w ≠ formatA 0x0#4 k → nnnOf w ≠ k := by
    rintro k hk rfl
    exact hk (h ▸ (formatA_fields w).symm)
  unfold decodeGroup0
  split_ifs with h1 h2
  · rfl
  · rfl
  · simp only [Instr.wf, Bool.and_eq_true, bne_iff_ne]
    exact ⟨hne _ h1, hne _ h2⟩

theorem encode_decodeGroup0 {w : Word} (h : opOf w = 0x0#4) : encode (decodeGroup0 w) = w := by
  unfold decodeGroup0
  split_ifs with h1 h2
  · exact h1.symm
  · exact h2.symm
  · rw [encode, ← h, formatA_fields]

theorem wf_decodeGroup8 {w : Word} (h : opOf w = 0x8#4) : (decodeGroup8 w).wf = true := by
  unfold decodeGroup8
  split
  case h_10 h0 h1 h2 h3 h4 h5 h6 h7 hE => exact unknownWord_of_group8 h h0 h1 h2 h3 h4 h5 h6 h7 hE
  all_goals rfl

theorem encode_decodeGroup8 {w : Word} (h : opOf w = 0x8#4) : encode (decodeGroup8 w) = w := by
  unfold decodeGroup8
  split
  case h_10 => rfl
  all_goals
    next hn => rw [encode, ← h, ← hn, formatR_fields]

theorem wf_decodeGroupE {w : Word} (h : opOf w = 0xE#4) : (decodeGroupE w).wf = true := by
  unfold decodeGroupE
  split
  case h_3 h1 h2 => exact unknownWord_of_groupE h h1 h2
  all_goals rfl

theorem encode_decodeGroupE {w : Word} (h : opOf w = 0xE#4) : encode (decodeGroupE w) = w := by
  unfold decodeGroupE
  split
  case h_3 => rfl
  all_goals
    next hn => rw [encode, ← h, ← hn, formatI_fields]

theorem wf_decodeGroupF {w : Word} (h : opOf w = 0xF#4) : (decodeGroupF w).wf = true := by
  unfold decodeGroupF
  split
  case h_10 h1 h2 h3 h4 h5 h6 h7 h8 h9 => exact unknownWord_of_groupF h h1 h2 h3 h4 h5 h6 h7 h8 h9
  all_goals rfl

theorem encode_decodeGroupF {w : Word} (h : opOf w = 0xF#4) : encode (decodeGroupF w) = w := by
  unfold decodeGroupF
  split
  case h_10 => rfl
  all_goals
    next hn => rw [encode, ← h, ← hn, formatI_fields]

/-! ## Every word -/

theorem wf_decodeWord (w : Word) : (decodeWord w).wf = true := by
  unfold decodeWord
  split
  case h_1 h => exact wf_decodeGroup0 h
  case h_9 h => exact wf_decodeGroup8 h
  case h_14 h => exact wf_decodeGroupE h
  case h_15 h => exact wf_decodeGroupF h
  case h_16 h0 h1 h2 h3 h4 h5 h6 h7 h8 h9 hA hB hD hE hF =>
    exact unknownWord_of_noGroup h0 h1 h2 h3 h4 h5 h6 h7 h8 h9 hA hB hD hE hF
  all_goals rfl

/-- Groups 5 and 9 write their trailing nibble as 0 (R107, R108). -/
theorem encode_decodeWord_of_ignored {w : Word} (h : opOf w = 0x5#4 ∨ opOf w = 0x9#4) :
    encode (decodeWord w) = w &&& 0xFFF0#16 := by
  rw [← formatR_fields_zero]
  rcases h with h | h <;> simp only [decodeWord, encode, h]

theorem encode_decodeWord {w : Word} (h5 : opOf w ≠ 0x5#4) (h9 : opOf w ≠ 0x9#4) : encode (decodeWord w) = w := by
  unfold decodeWord
  split
  case h_1 h => exact encode_decodeGroup0 h
  case h_6 h => exact absurd h h5
  case h_9 h => exact encode_decodeGroup8 h
  case h_10 h => exact absurd h h9
  case h_13 h => rw [encode, ← h, BitVec.ofFin_toFin, formatR_fields]
  case h_14 h => exact encode_decodeGroupE h
  case h_15 h => exact encode_decodeGroupF h
  case h_16 => rfl
  case h_2 h | h_3 h | h_11 h | h_12 h => rw [encode, ← h, formatA_fields]
  case h_4 h | h_5 h | h_7 h | h_8 h => rw [encode, ← h, formatI_fields]

/-- Every tag but the two whose words are not all canonical is the tag of one word, its encoding. -/
theorem encode_of_decodeWord {w : Word} {i : Instr} (h : decodeWord w = i) (h5 : ∀ x y, i ≠ .seReg x y)
    (h9 : ∀ x y, i ≠ .sneReg x y) : encode i = w := by
  subst h
  refine encode_decodeWord (fun hop => h5 (xOf w) (yOf w) ?_) (fun hop => h9 (xOf w) (yOf w) ?_)
  · simp only [decodeWord, hop]
  · simp only [decodeWord, hop]

theorem decodeWord_eq_unknown_iff {w v : Word} : decodeWord w = .unknown v ↔ v = w ∧ unknownWord w = true := by
  constructor
  · intro h
    obtain rfl : v = w := encode_of_decodeWord h (by simp) (by simp)
    have hwf := wf_decodeWord v
    rw [h] at hwf
    exact ⟨rfl, hwf⟩
  · rintro ⟨rfl, h⟩
    exact decodeWord_encode (.unknown v) h

theorem decodeWord_cls : decodeWord 0x00E0#16 = .cls := Laws.RoundTrip.cls rfl

theorem decodeWord_ret : decodeWord 0x00EE#16 = .ret := Laws.RoundTrip.ret rfl

/-- SYS is the rest of group 0 (R97). -/
theorem decodeWord_eq_sys_iff {w : Word} :
    (∃ nnn, decodeWord w = .sys nnn) ↔ w.toNat < 0x1000 ∧ w ≠ 0x00E0#16 ∧ w ≠ 0x00EE#16 := by
  constructor
  · rintro ⟨nnn, h⟩
    refine ⟨?_, ?_, ?_⟩
    · rw [← encode_of_decodeWord h (by simp) (by simp), encode, toNat_formatA]
      simpa using nnn.isLt
    · rintro rfl
      simp [decodeWord_cls] at h
    · rintro rfl
      simp [decodeWord_ret] at h
  · rintro ⟨hlow, hcls, hret⟩
    have hop : opOf w = 0x0#4 := by
      apply BitVec.eq_of_toNat_eq
      rw [toNat_opOf]
      exact Nat.div_eq_of_lt hlow
    exact ⟨nnnOf w, by simp only [decodeWord, hop, decodeGroup0, hcls, hret, if_false]⟩

/-! ## The opcode table -/

/-- A row that fixes the leading nibble. The value's own nibble is written out, so that `simp` computes it. -/
@[simp] theorem and_F000_eq_value_iff {w v : Word} (hv : v &&& 0xF000#16 = v) :
    w &&& 0xF000#16 = v ↔ opOf w = v.extractLsb' 12 4 := by
  have hvalue : v = BitVec.ofNat 16 ((opOf v).toNat * 0x1000) := by
    rw [← (and_F000_eq_iff v (opOf v)).mpr rfl, hv]
  rw [hvalue, and_F000_eq_iff, ← hvalue]
  exact Iff.rfl

/-- A row that fixes the leading and the trailing nibble. -/
@[simp] theorem and_F00F_eq_value_iff {w v : Word} (hv : v &&& 0xF00F#16 = v) :
    w &&& 0xF00F#16 = v ↔ opOf w = v.extractLsb' 12 4 ∧ nOf w = v.extractLsb' 0 4 := by
  have hvalue : v = formatR (opOf v) 0 0 (nOf v) := by
    rw [← (and_F00F_eq_iff v (opOf v) (nOf v)).mpr ⟨rfl, rfl⟩, hv]
  rw [hvalue, and_F00F_eq_iff, ← hvalue]
  exact Iff.rfl

/-- A row that fixes the leading nibble and the trailing byte. -/
@[simp] theorem and_F0FF_eq_value_iff {w v : Word} (hv : v &&& 0xF0FF#16 = v) :
    w &&& 0xF0FF#16 = v ↔ opOf w = v.extractLsb' 12 4 ∧ nnOf w = v.extractLsb' 0 8 := by
  have hvalue : v = formatI (opOf v) 0 (nnOf v) := by
    rw [← (and_F0FF_eq_iff v (opOf v) (nnOf v)).mpr ⟨rfl, rfl⟩, hv]
  rw [hvalue, and_F0FF_eq_iff, ← hvalue]
  exact Iff.rfl

@[simp] theorem and_FFFF (w : Word) : w &&& 0xFFFF#16 = w := BitVec.and_allOnes

/-- CLS and RET have rows of their own before all others; below are the words that those two rows pass over. -/
theorem firstMatch_of_unknownWord {w : Word} (hcls : w ≠ 0x00E0#16) (hret : w ≠ 0x00EE#16) (h : unknownWord w = true) :
    firstMatch w opcodeTable = some (.unknown w) := by
  simp only [unknownWord_eq, Bool.or_eq_true, Bool.and_eq_true, beq_iff_eq, Bool.not_eq_true', List.contains_eq_mem,
    decide_eq_true_eq, decide_eq_false_iff_not, List.mem_cons, List.not_mem_nil, or_false, not_or] at h
  obtain ((hC | ⟨h8, hn⟩) | ⟨hE, hsel⟩) | ⟨hF, hsel⟩ := h
  · simp [firstMatch, opcodeTable, hcls, hret, hC]
  · rcases hn with hn | hn | hn | hn | hn | hn | hn <;> simp [firstMatch, opcodeTable, hcls, hret, h8, hn]
  · simp [firstMatch, opcodeTable, hcls, hret, hE, hsel]
  · simp [firstMatch, opcodeTable, hcls, hret, hF, hsel]

theorem firstMatch_of_group8 {w : Word} (hcls : w ≠ 0x00E0#16) (hret : w ≠ 0x00EE#16) (h : opOf w = 0x8#4) :
    firstMatch w opcodeTable = some (decodeGroup8 w) := by
  unfold decodeGroup8
  split
  case h_10 h0 h1 h2 h3 h4 h5 h6 h7 hE =>
    exact firstMatch_of_unknownWord hcls hret (unknownWord_of_group8 h h0 h1 h2 h3 h4 h5 h6 h7 hE)
  all_goals next hn => simp [firstMatch, opcodeTable, hcls, hret, h, hn]

theorem firstMatch_of_groupE {w : Word} (hcls : w ≠ 0x00E0#16) (hret : w ≠ 0x00EE#16) (h : opOf w = 0xE#4) :
    firstMatch w opcodeTable = some (decodeGroupE w) := by
  unfold decodeGroupE
  split
  case h_3 h1 h2 => exact firstMatch_of_unknownWord hcls hret (unknownWord_of_groupE h h1 h2)
  all_goals next hn => simp [firstMatch, opcodeTable, hcls, hret, h, hn]

theorem firstMatch_of_groupF {w : Word} (hcls : w ≠ 0x00E0#16) (hret : w ≠ 0x00EE#16) (h : opOf w = 0xF#4) :
    firstMatch w opcodeTable = some (decodeGroupF w) := by
  unfold decodeGroupF
  split
  case h_10 h1 h2 h3 h4 h5 h6 h7 h8 h9 =>
    exact firstMatch_of_unknownWord hcls hret (unknownWord_of_groupF h h1 h2 h3 h4 h5 h6 h7 h8 h9)
  all_goals next hn => simp [firstMatch, opcodeTable, hcls, hret, h, hn]

theorem firstMatch_opcodeTable (w : Word) : firstMatch w opcodeTable = some (decodeWord w) := by
  by_cases hcls : w = 0x00E0#16
  · rw [hcls, decodeWord_cls]
    rfl
  by_cases hret : w = 0x00EE#16
  · rw [hret, decodeWord_ret]
    rfl
  unfold decodeWord
  split
  case h_1 h => simp [firstMatch, opcodeTable, decodeGroup0, hcls, hret, h]
  case h_9 h => exact firstMatch_of_group8 hcls hret h
  case h_14 h => exact firstMatch_of_groupE hcls hret h
  case h_15 h => exact firstMatch_of_groupF hcls hret h
  case h_16 h0 h1 h2 h3 h4 h5 h6 h7 h8 h9 hA hB hD hE hF =>
    exact firstMatch_of_unknownWord hcls hret
      (unknownWord_of_noGroup h0 h1 h2 h3 h4 h5 h6 h7 h8 h9 hA hB hD hE hF)
  all_goals next h => simp [firstMatch, opcodeTable, hcls, hret, h]

/-! ## The statements -/

/-- Settles O2: the bytes of the encoding hold its word, and the decoder undoes the encoder on it. -/
theorem decodeOfEncodeIsIdentity : Obligations.DecodeOfEncodeIsIdentity := by
  unfold Obligations.DecodeOfEncodeIsIdentity
  intro i rest hwf
  calc decode (encodeBytes i ++ rest)
      = .ok (decodeWord (wordOfBytes (firstByte (encode i)) (secondByte (encode i))), rest) := rfl
    _ = .ok (i, rest) := by rw [wordOfBytes_bytes, decodeWord_encode i hwf]

/-- Settles O3: group by group, the fields put back together are the word. -/
theorem encodeOfDecodeIsCanonical : Obligations.EncodeOfDecodeIsCanonical := by
  unfold Obligations.EncodeOfDecodeIsCanonical
  intro w
  refine ⟨wf_decodeWord w, ?_⟩
  split_ifs with h
  · exact encode_decodeWord_of_ignored h
  · obtain ⟨h5, h9⟩ := not_or.mp h
    exact encode_decodeWord h5 h9

/-- Settles O4: group by group, the masks select the row of the decoder's case. -/
theorem decoderIsFirstMatchingTableRow : Obligations.DecoderIsFirstMatchingTableRow := by
  unfold Obligations.DecoderIsFirstMatchingTableRow
  exact firstMatch_opcodeTable

/-- Settles O5: UNKNOWN and SYS are each well formed and their own encoding, which fixes the word. -/
theorem unknownIsTheUndefinedClass : Obligations.UnknownIsTheUndefinedClass := by
  unfold Obligations.UnknownIsTheUndefinedClass
  intro w
  refine ⟨⟨?_, fun h => ⟨w, decodeWord_eq_unknown_iff.mpr ⟨rfl, h⟩⟩⟩, fun v h => (decodeWord_eq_unknown_iff.mp h).1,
    decodeWord_eq_sys_iff⟩
  rintro ⟨v, h⟩
  exact (decodeWord_eq_unknown_iff.mp h).2

/-- Settles O1: each of the ten words is the encoding of its instruction. -/
theorem sourceWordsDecode : Obligations.SourceWordsDecode := by
  unfold Obligations.SourceWordsDecode
  exact ⟨decodeWord_cls, decodeWord_ret, Laws.RoundTrip.jp 0xABC#12 rfl, Laws.RoundTrip.call 0xABC#12 rfl,
    Laws.RoundTrip.ldI 0xABC#12 rfl, Laws.RoundTrip.seImm 1 0x99#8 rfl, Laws.RoundTrip.seReg 1 2 rfl,
    Laws.RoundTrip.ldReg 1 2 rfl, Laws.RoundTrip.addReg 1 2 rfl, Laws.RoundTrip.sub 1 2 rfl⟩

end Sys2Proof
end

section
/-! What an instruction does to the machine, said once, with its fault, its next `pc` and its row of the read/write summary
(10_state.md sections 2, 6; 60_exceptions.md R240 to R245). -/

namespace Sys2Proof.Machine

/-! ## The ends of the skips, and of JP V0 -/

theorem exec_seReg (x y : RegIdx) (s : State) : exec (.seReg x y) s = skipIf (s.reg x == s.reg y) s := rfl

theorem exec_sneReg (x y : RegIdx) (s : State) : exec (.sneReg x y) s = skipIf (s.reg x != s.reg y) s := rfl

theorem exec_skp (x : RegIdx) (s : State) : exec (.skp x) s = skipIf (keyDown s x) s := rfl

theorem exec_sknp (x : RegIdx) (s : State) : exec (.sknp x) s = skipIf (!keyDown s x) s := rfl

theorem exec_jpV0 (nnn : Addr12) (s : State) :
    exec (.jpV0 nnn) s = completeAt (addr16 nnn + (s.reg 0).setWidth 16) s := rfl

/-- A skip whose test decides `p` goes 4 on when `p` holds and 2 when not. -/
theorem skipIf_of_iff {c : Bool} {p : Prop} [Decidable p] (h : c = true ↔ p) (s : State) :
    skipIf c s = completeAt (if p then s.pc + 4 else s.pc + 2) s := by
  simp only [skipIf, h]

/-- The same of a test that decides the opposite of `p`. -/
theorem skipIf_of_iff_not {c : Bool} {p : Prop} [Decidable p] (h : c = true ↔ ¬ p) (s : State) :
    skipIf c s = completeAt (if p then s.pc + 2 else s.pc + 4) s := by
  simp only [skipIf, h, ite_not]

/-- The target of JP V0 is a sum that 16 bits hold (40_cycle_and_control.md R130). -/
theorem addr16_add_setWidth (nnn : Addr12) (v : Byte) :
    addr16 nnn + v.setWidth 16 = BitVec.ofNat 16 (nnn.toNat + v.toNat) := by
  apply BitVec.eq_of_toNat_eq
  simp only [BitVec.toNat_add, toNat_addr16, BitVec.toNat_setWidth, BitVec.toNat_ofNat]
  omega

theorem toNat_nextPc_jpV0 (nnn : Addr12) (s : State) :
    (nextPc (.jpV0 nnn) s).toNat = nnn.toNat + (s.reg 0).toNat := by
  have := nnn.isLt
  have := (s.reg 0).isLt
  simp only [nextPc, BitVec.toNat_ofNat]
  omega

/-! ## The causes of a fault, in terms of the checks the meanings make -/

/-- A cause that holds exactly when the checked run is not in range (20_memory.md R62). -/
theorem cause_eq_of_iff_outOfRange {p : Prop} [Decidable p] {a n : Nat} (h : p ↔ n ≠ 0 ∧ 4096 < a + n) :
    (if p then some Fault.outOfBounds else none) = if runInRange a n then none else some .outOfBounds := by
  cases hr : runInRange a n with
  | false => exact if_pos (h.mpr ((runInRange_false_iff a n).mp hr))
  | true =>
    rw [runInRange_iff] at hr
    exact if_neg fun hp => by have := h.mp hp; omega

theorem faultCause_drw (x y : RegIdx) (n : Fin 16) (s : State) :
    faultCause (.drw x y n) s = if runInRange (effAddr s 0) n.val then none else some .outOfBounds :=
  cause_eq_of_iff_outOfRange (by rw [effAddr_zero]; omega)

theorem faultCause_ldB (x : RegIdx) (s : State) :
    faultCause (.ldB x) s = if runInRange (effAddr s 0) 3 then none else some .outOfBounds :=
  cause_eq_of_iff_outOfRange (by rw [effAddr_zero]; omega)

theorem faultCause_stRegs (x : RegIdx) (s : State) :
    faultCause (.stRegs x) s = if runInRange (effAddr s 0) (x.val + 1) then none else some .outOfBounds :=
  cause_eq_of_iff_outOfRange (by rw [effAddr_zero]; omega)

/-- The load checks the run that the dump checks. -/
theorem faultCause_ldRegs (x : RegIdx) (s : State) :
    faultCause (.ldRegs x) s = if runInRange (effAddr s 0) (x.val + 1) then none else some .outOfBounds :=
  faultCause_stRegs x s

/-- The row of an instruction that can fault lists the latch. -/
theorem writesOf_fault {i : Instr} {s : State} {f : Fault} (h : faultCause i s = some f) : (writesOf i s).fault := by
  cases i with
  | ret | sys | call | drw | ldB | stRegs | ldRegs | unknown => exact trivial
  | cls | jp | seImm | sneImm | seReg | sneReg | ldImm | addImm | ldReg | or | and | xor | addReg | sub | shr | subn | shl
  | ldI | jpV0 | skp | sknp | ldVxDt | ldVxK | ldDtVx | ldStVx | addI | ldF => simp [faultCause] at h

/-! ## The three ends -/

/-- `i` completes in `s`, going to its next `pc` from the state `u`: the row of `i` is all that differs, the latch stays, memory
is the old one with a run of bytes in range written (most write none), and the stack is the old one, perhaps shorter, or
the old one with the return address pushed. -/
structure Completes (i : Instr) (s u : State) : Prop where
  ends : exec i s = completeAt (nextPc i s) u
  keeps : Keeps (writesOf i s) s u
  fault : u.fault = s.fault
  mem : ∃ a bytes, runInRange a bytes.length = true ∧ u.mem = s.mem.writeRun a bytes
  stack : (u.stack = s.stack ∧ u.sp.val ≤ s.sp.val) ∨
    ∃ h, u.stack = (s.push (s.pc + 2) h).stack ∧ u.sp = (s.push (s.pc + 2) h).sp

section
variable {i : Instr} {s u : State} (hexec : exec i s = completeAt (nextPc i s) u) (hkeeps : Keeps (writesOf i s) s u)
  (hfault : u.fault = s.fault)
include hexec hkeeps hfault

/-- An instruction that stores nothing and leaves the stack alone. -/
theorem Completes.of_same (hmem : u.mem = s.mem) (hstack : u.stack = s.stack) (hsp : u.sp = s.sp) : Completes i s u :=
  ⟨hexec, hkeeps, hfault, ⟨0, [], rfl, hmem⟩, .inl ⟨hstack, hsp ▸ Nat.le_refl _⟩⟩

/-- An instruction that stores a run and leaves the stack alone. -/
theorem Completes.of_store {a : Nat} {bytes : List Byte} (hrun : runInRange a bytes.length = true)
    (hmem : u.mem = s.mem.writeRun a bytes) (hstack : u.stack = s.stack) (hsp : u.sp = s.sp) : Completes i s u :=
  ⟨hexec, hkeeps, hfault, ⟨a, bytes, hrun, hmem⟩, .inl ⟨hstack, hsp ▸ Nat.le_refl _⟩⟩

end

section
variable (s : State)

/-- An instruction that writes one register. -/
theorem Completes.of_setReg {i : Instr} {x : RegIdx} {v : Byte}
    (hexec : exec i s = completeAt (nextPc i s) (s.setReg x v)) (hx : (writesOf i s).reg x) : Completes i s (s.setReg x v) :=
  .of_same hexec ((Keeps.refl _ s).setReg x v hx) rfl rfl rfl rfl

/-- An instruction that writes VF and then one register (41_alu.md R150). -/
theorem Completes.of_flagThenResult {i : Instr} {x : RegIdx} {flag result : Byte}
    (hexec : exec i s = completeAt (nextPc i s) ((s.setFlag flag).setReg x result)) (hx : (writesOf i s).reg x)
    (hf : (writesOf i s).reg 15) : Completes i s ((s.setFlag flag).setReg x result) :=
  .of_same hexec (((Keeps.refl _ s).setFlag flag hf).setReg x result hx) rfl rfl rfl rfl

/-- A jump or a skip. -/
theorem Completes.of_jump {i : Instr} (hexec : exec i s = completeAt (nextPc i s) s) : Completes i s s :=
  .of_same hexec (Keeps.refl _ s) rfl rfl rfl rfl

end

/-- Every instruction from every state: it raises its cause, or is the key wait and blocks, or completes. This is `exec_cases`
with the cause, the target, the frame, the stores and the stack said as well. -/
theorem exec_ends (i : Instr) (s : State) :
    (∃ f, faultCause i s = some f ∧ exec i s = raise f s) ∨
    (faultCause i s = none ∧ s.press = none ∧ (∃ x, i = .ldVxK x) ∧ exec i s = block s) ∨
    (faultCause i s = none ∧ ∃ u, Completes i s u) := by
  cases i with
  | sys nnn => exact .inl ⟨_, rfl, rfl⟩
  | unknown w => exact .inl ⟨_, rfl, rfl⟩
  | ret =>
    by_cases h : s.sp.val = 0
    · exact .inl ⟨.stackUnderflow, if_pos h, if_pos h⟩
    · exact .inr (.inr ⟨if_neg h, s.pop, if_neg h, (Keeps.refl _ s).pop trivial, rfl, ⟨0, [], rfl, rfl⟩,
        .inl ⟨rfl, Nat.sub_le _ _⟩⟩)
  | call nnn =>
    by_cases h : s.sp.val < Config.stackDepth
    · exact .inr (.inr ⟨if_neg (Nat.ne_of_lt h), s.push (s.pc + 2) h, dif_pos h, (Keeps.refl _ s).push _ h trivial, rfl,
        ⟨0, [], rfl, rfl⟩, .inr ⟨h, rfl, rfl⟩⟩)
    · have hfull : s.sp.val = 16 := by
        have := s.sp.isLt
        simp only [Config.stackDepth] at *
        omega
      exact .inl ⟨.stackOverflow, if_pos hfull, dif_neg h⟩
  | drw x y n =>
    rw [faultCause_drw]
    cases hr : runInRange (effAddr s 0) n.val with
    | false => exact .inl ⟨_, rfl, exec_drw_outOfRange hr⟩
    | true =>
      exact .inr (.inr ⟨rfl, (s.setFb (drawSprite s x y n.val).fb).setFlag (collisionFlag (drawSprite s x y n.val).hit),
        .of_same (exec_drw_inRange hr) (((Keeps.refl _ s).setFb _ trivial).setFlag _ rfl) rfl rfl rfl rfl⟩)
  | ldB x =>
    rw [faultCause_ldB]
    cases hr : runInRange (effAddr s 0) 3 with
    | false => exact .inl ⟨_, rfl, exec_ldB_outOfRange hr⟩
    | true =>
      exact .inr (.inr ⟨rfl, _, .of_store (exec_ldB_inRange hr)
        ((Keeps.refl _ s).writeRun _ (bcdDigits (s.reg x)) fun _ hlow hhigh => ⟨hlow, hhigh⟩) rfl hr rfl rfl rfl⟩)
  | stRegs x =>
    rw [faultCause_stRegs]
    cases hr : runInRange (effAddr s 0) (x.val + 1) with
    | false => exact .inl ⟨_, rfl, exec_stRegs_outOfRange hr⟩
    | true =>
      have hlen := length_regsUpTo s x
      exact .inr (.inr ⟨rfl, _, .of_store (exec_stRegs_inRange hr)
        ((Keeps.refl _ s).writeRun _ _ fun _ hlow hhigh => ⟨hlow, hlen ▸ hhigh⟩) rfl (hlen ▸ hr) rfl rfl rfl⟩)
  | ldRegs x =>
    rw [faultCause_ldRegs]
    cases hr : runInRange (effAddr s 0) (x.val + 1) with
    | false => exact .inl ⟨_, rfl, exec_ldRegs_outOfRange hr⟩
    | true =>
      exact .inr (.inr ⟨rfl, _, .of_same (exec_ldRegs_inRange hr)
        ((Keeps.refl _ s).loadRegs _ _ _ fun _ h => Nat.le_of_lt_succ h) rfl rfl rfl rfl⟩)
  | ldVxK x =>
    cases hp : s.press with
    | none => exact .inr (.inl ⟨rfl, rfl, ⟨x, rfl⟩, exec_ldVxK_of_no_press hp⟩)
    | some k => exact .inr (.inr ⟨rfl, _, .of_setReg s (exec_ldVxK_of_press hp) rfl⟩)
  | cls => exact .inr (.inr ⟨rfl, _, .of_same rfl ((Keeps.refl _ s).setFb _ trivial) rfl rfl rfl rfl⟩)
  | ldI nnn => exact .inr (.inr ⟨rfl, _, .of_same rfl ((Keeps.refl _ s).setIdx _ trivial) rfl rfl rfl rfl⟩)
  | addI x => exact .inr (.inr ⟨rfl, _, .of_same rfl ((Keeps.refl _ s).setIdx _ trivial) rfl rfl rfl rfl⟩)
  | ldF x => exact .inr (.inr ⟨rfl, _, .of_same rfl ((Keeps.refl _ s).setIdx _ trivial) rfl rfl rfl rfl⟩)
  | ldDtVx x => exact .inr (.inr ⟨rfl, _, .of_same rfl ((Keeps.refl _ s).setDt _ trivial) rfl rfl rfl rfl⟩)
  | ldStVx x => exact .inr (.inr ⟨rfl, _, .of_same rfl ((Keeps.refl _ s).setSt _ trivial) rfl rfl rfl rfl⟩)
  | jp nnn => exact .inr (.inr ⟨rfl, s, .of_jump s rfl⟩)
  | jpV0 nnn => exact .inr (.inr ⟨rfl, s, .of_jump s (congrArg (completeAt · s) (addr16_add_setWidth nnn _))⟩)
  | seImm x nn => exact .inr (.inr ⟨rfl, s, .of_jump s (skipIf_of_iff beq_iff_eq s)⟩)
  | seReg x y => exact .inr (.inr ⟨rfl, s, .of_jump s (skipIf_of_iff beq_iff_eq s)⟩)
  | skp x => exact .inr (.inr ⟨rfl, s, .of_jump s (skipIf_of_iff Iff.rfl s)⟩)
  | sneImm x nn => exact .inr (.inr ⟨rfl, s, .of_jump s (skipIf_of_iff_not bne_iff_ne s)⟩)
  | sneReg x y => exact .inr (.inr ⟨rfl, s, .of_jump s (skipIf_of_iff_not bne_iff_ne s)⟩)
  | sknp x => exact .inr (.inr ⟨rfl, s, .of_jump s (skipIf_of_iff_not (by simp) s)⟩)
  | ldImm | addImm | ldReg | or | and | xor | ldVxDt => exact .inr (.inr ⟨rfl, _, .of_setReg s rfl rfl⟩)
  | addReg | sub | shr | subn | shl => exact .inr (.inr ⟨rfl, _, .of_flagThenResult s rfl (.inl rfl) (.inr rfl)⟩)

/-- The same of an instruction that is known to answer a next state. -/
theorem exec_next_cases {i : Instr} {s t : State} (h : exec i s = .next t) :
    (∃ f, faultCause i s = some f ∧ t = (s.setFault (some f)).setReply (.fault f)) ∨
    (faultCause i s = none ∧ s.press = none ∧ (∃ x, i = .ldVxK x) ∧ t = s.setReply .blocked) ∨
    (faultCause i s = none ∧ ∃ u, Completes i s u ∧ t = (u.setPc (nextPc i s)).setReply .advanced) := by
  obtain ⟨f, hf, he⟩ | ⟨hf, hpress, hi, he⟩ | ⟨hf, u, hu⟩ := exec_ends i s
  · rw [he, raise_eq] at h
    exact .inl ⟨f, hf, (Host.Outcome.next.inj h).symm⟩
  · rw [he, block_eq] at h
    exact .inr (.inl ⟨hf, hpress, hi, (Host.Outcome.next.inj h).symm⟩)
  · rw [hu.ends] at h
    exact .inr (.inr ⟨hf, u, hu, completeAt_next h⟩)

theorem exec_total (i : Instr) (s : State) : ∃ t, exec i s = .next t := by
  obtain ⟨f, -, he⟩ | ⟨-, -, -, he⟩ | ⟨-, u, hu⟩ := exec_ends i s
  · exact ⟨_, he⟩
  · exact ⟨_, he⟩
  · exact ⟨_, hu.ends⟩

/-! ## The statements about every instruction -/

/-- Settles O45: the latch is in the row of an instruction that can fault, and what completes keeps its row. -/
theorem instructionsWriteOnlyTheirRow : Obligations.InstructionsWriteOnlyTheirRow := by
  unfold Obligations.InstructionsWriteOnlyTheirRow
  intro i s t h
  obtain ⟨f, hf, rfl⟩ | ⟨-, -, -, rfl⟩ | ⟨-, u, hu, rfl⟩ := exec_next_cases h
  · exact ((Keeps.refl _ s).setFault _ (writesOf_fault hf)).setReply _
  · exact (Keeps.refl _ s).setReply _
  · exact hu.keeps.complete _

/-- Settles O43: of the three ends only the fault changes the latch. -/
theorem faultLeavesNoPartialEffect : Obligations.FaultLeavesNoPartialEffect := by
  unfold Obligations.FaultLeavesNoPartialEffect
  intro i s t h hlatch
  obtain ⟨f, -, rfl⟩ | ⟨-, -, -, rfl⟩ | ⟨-, u, hu, rfl⟩ := exec_next_cases h
  · exact ⟨rfl, keeps_raise f s⟩
  · exact absurd rfl hlatch
  · exact absurd hu.fault hlatch

/-- Settles O44: the fault raised is the table's cause, and without a cause the latch stays empty. -/
theorem everyFaultHasItsCause : Obligations.EveryFaultHasItsCause := by
  unfold Obligations.EveryFaultHasItsCause
  intro i s hrunning
  obtain ⟨t, h⟩ := exec_total i s
  refine ⟨t, h, ?_⟩
  obtain ⟨f, hf, rfl⟩ | ⟨hf, -, -, rfl⟩ | ⟨hf, u, hu, rfl⟩ := exec_next_cases h
  · exact hf.symm
  · exact hrunning.trans hf.symm
  · exact (hu.fault.trans hrunning).trans hf.symm

end Sys2Proof.Machine
end

section
/-! The invariant of the machine (10_state.md section 2; 20_memory.md section 2): every request keeps it. -/

namespace Sys2Proof.Machine

/-- The invariant looks at memory, `pc` and the stack alone. -/
theorem Inv.congr {s t : State} (h : Inv s) (hmem : t.mem = s.mem) (hpc : t.pc = s.pc) (hstack : t.stack = s.stack)
    (hsp : t.sp = s.sp) : Inv t := by
  refine ⟨hmem ▸ h.mem, hpc ▸ h.pc, fun k hk => ?_⟩
  rw [hstack]
  exact h.stack k (hsp ▸ hk)

/-! ## Where `pc` can go -/

/-- The sequential advance and the skip from an address that can be fetched. -/
theorem toNat_pc_add_le {s : State} (hfetch : s.pc.toNat + 2 ≤ 4096) :
    (s.pc + 2).toNat ≤ 4096 ∧ (s.pc + 4).toNat ≤ 4098 := by
  constructor <;> bv_omega

/-- The newest of the valid return addresses. -/
theorem toNat_top_le {s : State} (h : Inv s) (hsp : s.sp.val ≠ 0) : s.top.toNat ≤ 4096 := by
  have hdepth := s.sp.isLt
  have hk : s.sp.val - 1 < 16 := by
    simp only [Config.stackDepth] at hdepth
    omega
  exact h.stack ⟨s.sp.val - 1, hk⟩ (Nat.sub_one_lt hsp)

/-- The bound of 10_state.md R23 on the next `pc`; only JP V0 reaches it. -/
theorem toNat_nextPc_le {i : Instr} {s : State} (h : Inv s) (hfetch : s.pc.toNat + 2 ≤ 4096)
    (hcause : faultCause i s = none) : (nextPc i s).toNat ≤ 0x10FE := by
  obtain ⟨h2, h4⟩ := toNat_pc_add_le hfetch
  have hseq : (s.pc + 2).toNat ≤ 0x10FE := h2.trans (by decide)
  have hskip : (s.pc + 4).toNat ≤ 0x10FE := h4.trans (by decide)
  cases i with
  | jp nnn | call nnn =>
    have htarget := toNat_addr16 nnn
    have := nnn.isLt
    rw [addr16] at htarget
    rw [nextPc, htarget]
    omega
  | jpV0 nnn =>
    have := nnn.isLt
    have := (s.reg 0).isLt
    rw [toNat_nextPc_jpV0]
    omega
  | ret =>
    have hsp : s.sp.val ≠ 0 := fun h0 => by simp [faultCause, h0] at hcause
    exact (toNat_top_le h hsp).trans (by decide)
  | seImm | seReg | skp =>
    rw [nextPc]
    split
    · exact hskip
    · exact hseq
  | sneImm | sneReg | sknp =>
    rw [nextPc]
    split
    · exact hseq
    · exact hskip
  | cls | sys | ldImm | addImm | ldReg | or | and | xor | addReg | sub | shr | subn | shl | ldI | drw | ldVxDt | ldVxK
  | ldDtVx | ldStVx | addI | ldF | ldB | stRegs | ldRegs | unknown => exact hseq

/-! ## Every step -/

/-- A pushed return address is one past an instruction that was fetched. -/
theorem Inv.stack_push {s : State} (h : Inv s) (hfetch : s.pc.toNat + 2 ≤ 4096) (hroom : s.sp.val < Config.stackDepth)
    (k : Fin 16) (hk : k.val < (s.push (s.pc + 2) hroom).sp.val) :
    ((s.push (s.pc + 2) hroom).stack[k.val]).toNat ≤ 4096 := by
  simp only [State.push_sp, State.push_stack] at hk ⊢
  rw [Vector.getElem_set]
  split
  · exact (toNat_pc_add_le hfetch).1
  · exact h.stack k (by omega)

theorem Completes.stack_le {i : Instr} {s u : State} (hu : Completes i s u) (h : Inv s)
    (hfetch : s.pc.toNat + 2 ≤ 4096) (k : Fin 16) (hk : k.val < u.sp.val) : u.stack[k.val].toNat ≤ 4096 := by
  obtain ⟨hstack, hsp⟩ | ⟨hroom, hstack, hsp⟩ := hu.stack
  · rw [hstack]
    exact h.stack k (by omega)
  · rw [hstack]
    exact h.stack_push hfetch hroom k (hsp ▸ hk)

theorem Completes.inv {i : Instr} {s u : State} (hu : Completes i s u) (h : Inv s) (hfetch : s.pc.toNat + 2 ≤ 4096)
    (hcause : faultCause i s = none) : Inv ((u.setPc (nextPc i s)).setReply .advanced) where
  mem := by
    obtain ⟨a, bytes, hrange, hmem⟩ := hu.mem
    exact hmem ▸ Memory.wf_writeRun_of_inRange a bytes h.mem hrange
  pc := toNat_nextPc_le h hfetch hcause
  stack := hu.stack_le h hfetch

theorem Inv.exec {i : Instr} {s t : State} (h : Inv s) (hfetch : s.pc.toNat + 2 ≤ 4096) (hnext : exec i s = .next t) :
    Inv t := by
  obtain ⟨f, -, rfl⟩ | ⟨-, -, -, rfl⟩ | ⟨hcause, u, hu, rfl⟩ := exec_next_cases hnext
  · exact h.congr rfl rfl rfl rfl
  · exact h.congr rfl rfl rfl rfl
  · exact hu.inv h hfetch hcause

/-- The three ways of a Cycle (40_cycle_and_control.md R120): halted, nothing to fetch, or an instruction. -/
theorem runCycle_cases (s : State) :
    (∃ f, s.fault = some f ∧ runCycle s = .next (s.setReply (.fault f))) ∨
    (s.fault = none ∧ fetch s = none ∧ runCycle s = raise .outOfBounds s) ∨
    (s.fault = none ∧ ∃ w, fetch s = some w ∧ runCycle s = exec (decodeWord w) s) := by
  cases hf : s.fault with
  | some f => exact .inl ⟨f, rfl, runCycle_halted hf⟩
  | none =>
    cases hw : fetch s with
    | none => exact .inr (.inl ⟨rfl, rfl, runCycle_fetchFault hf hw⟩)
    | some w => exact .inr (.inr ⟨rfl, w, rfl, runCycle_of_fetch hf hw⟩)

theorem Inv.runCycle {s t : State} (h : Inv s) (hnext : runCycle s = .next t) : Inv t := by
  obtain ⟨f, -, he⟩ | ⟨-, -, he⟩ | ⟨-, w, hw, he⟩ := runCycle_cases s
  · obtain rfl := Host.Outcome.next.inj (he.symm.trans hnext)
    exact h.congr rfl rfl rfl rfl
  · obtain rfl := Host.Outcome.next.inj ((he.trans (raise_eq _ s)).symm.trans hnext)
    exact h.congr rfl rfl rfl rfl
  · exact h.exec (fetch_eq_some_iff.mp hw).1 (he.symm.trans hnext)

/-- The three answers to a load (20_memory.md R76, R77): refused, placed in full, or turned away. -/
theorem preload_cases (addr : Nat) (bytes : List Byte) (s : State) :
    (s.started = true ∧ preload addr bytes s = .refused .hostLoadDuringRun) ∨
    (s.started = false ∧ runInRange addr bytes.length = true ∧
      preload addr bytes s = .next ((s.setMem (s.mem.writeRun addr bytes)).setReply .ok)) ∨
    (s.started = false ∧ runInRange addr bytes.length = false ∧
      preload addr bytes s = .next (s.setReply .outOfBounds)) := by
  cases hstarted : s.started with
  | true => exact .inl ⟨rfl, if_pos hstarted⟩
  | false =>
    cases hrange : runInRange addr bytes.length with
    | true =>
      refine .inr (.inl ⟨rfl, rfl, ?_⟩)
      simp only [preload, hstarted, hrange, answer, Bool.false_eq_true, if_false, if_true]
    | false =>
      refine .inr (.inr ⟨rfl, rfl, ?_⟩)
      simp only [preload, hstarted, hrange, answer, Bool.false_eq_true, if_false]

theorem Inv.preload {addr : Nat} {bytes : List Byte} {s t : State} (h : Inv s) (hnext : preload addr bytes s = .next t) :
    Inv t := by
  obtain ⟨-, he⟩ | ⟨-, hrange, he⟩ | ⟨-, -, he⟩ := preload_cases addr bytes s
  · rw [he] at hnext
    cases hnext
  · obtain rfl := Host.Outcome.next.inj (he.symm.trans hnext)
    exact ⟨Memory.wf_writeRun_of_inRange addr bytes h.mem hrange, h.pc, h.stack⟩
  · obtain rfl := Host.Outcome.next.inj (he.symm.trans hnext)
    exact h.congr rfl rfl rfl rfl

/-- Settles O48: the reset state has no byte listed and no entry valid. -/
theorem resetMeetsInvariant : Obligations.ResetMeetsInvariant := by
  unfold Obligations.ResetMeetsInvariant
  exact ⟨rfl, by decide, fun _ hk => absurd hk (Nat.not_lt_zero _)⟩

theorem Inv.serve {r : Request} {s t : State} (h : Inv s) (hnext : serve r s = .next t) : Inv t := by
  cases r with
  | cycle p =>
    obtain ⟨u, hu, rfl⟩ := mapNext_eq_next_iff.mp hnext
    have hpressed : Inv (s.setPress p) := h.congr rfl rfl rfl rfl
    exact (hpressed.runCycle hu).congr rfl rfl rfl rfl
  | tick =>
    obtain rfl := Host.Outcome.next.inj hnext
    exact h.congr rfl rfl rfl rfl
  | reset =>
    obtain rfl := Host.Outcome.next.inj hnext
    exact Inv.congr resetMeetsInvariant rfl rfl rfl rfl
  | setKeys keys =>
    obtain rfl := Host.Outcome.next.inj hnext
    exact h.congr rfl rfl rfl rfl
  | preload addr bytes => exact h.preload hnext
  | loadProgram bytes => exact h.preload hnext

/-- Settles O49: a step is idle or serves one request, and each request keeps the invariant. -/
theorem stepKeepsInvariant : Obligations.StepKeepsInvariant := by
  unfold Obligations.StepKeepsInvariant
  intro s t h hstep
  obtain ⟨-, he⟩ | ⟨r, -, he⟩ := step_cases s
  · obtain rfl := Host.Outcome.next.inj (he.symm.trans hstep)
    exact h
  · have hdropped : Inv s.dropRequest := h.congr rfl rfl rfl rfl
    exact hdropped.serve (he.symm.trans hstep)

end Sys2Proof.Machine
end

section
/-! The Cycle as a step (40_cycle_and_control.md R120; 00_scope.md R7; 20_memory.md R64; 60_exceptions.md R243, R253). -/

namespace Sys2Proof.Machine

/-! ## The state a Cycle's instruction runs in -/

/-- A step whose Cycle fetches a word is exec of what it decodes to. -/
theorem step_runs_fetched {s : State} {p : Option Key} {w : Word} (hreq : s.nextRequest = some (.cycle p))
    (hrunning : s.fault = none) (hfetch : fetch s = some w) :
    step s = mapNext State.endCycle (exec (decodeWord w) (s.dropRequest.setPress p)) := by
  have hrunning' : (s.dropRequest.setPress p).fault = none := hrunning
  have hfetch' : fetch (s.dropRequest.setPress p) = some w := (fetch_congr rfl rfl).trans hfetch
  rw [step_of_cycle hreq, runCycle_of_fetch hrunning' hfetch']

/-- No target depends on the requests or on the press. -/
theorem nextPc_presented (i : Instr) (s : State) (p : Option Key) : nextPc i (s.dropRequest.setPress p) = nextPc i s := by
  cases i <;> rfl

/-- Neither does any row of the read/write summary. -/
theorem writesOf_presented (i : Instr) (s : State) (p : Option Key) :
    writesOf i (s.dropRequest.setPress p) = writesOf i s := by
  cases i <;> rfl

/-- What the instruction kept, the Cycle keeps but for the request and the press it used up. -/
theorem Keeps.endCycle {c : MayChange} {s t : State} {p : Option Key} (h : Keeps c (s.setPress p) t) :
    Keeps c s.endCycle t.endCycle :=
  ⟨h.reg, h.idx, h.sp, h.stack, h.dt, h.st, h.fb, h.byte, h.fault, h.keys, rfl, h.pending, rfl⟩

/-- Setting the answer is all that a halted or a blocked core does. -/
theorem keeps_answered (s : State) (p : Option Key) (r : Reply) :
    Keeps {} s.endCycle ((s.setPress p).setReply r).endCycle :=
  Keeps.endCycle ((Keeps.refl _ _).setReply r)

theorem step_of_halted {s : State} {p : Option Key} {f : Fault} (hreq : s.nextRequest = some (.cycle p))
    (hf : s.fault = some f) :
    step s = .next ((s.dropRequest.setPress p).setReply (.fault f)).endCycle := by
  have hhalted : (s.dropRequest.setPress p).fault = some f := hf
  rw [step_of_cycle hreq, runCycle_halted hhalted, mapNext_next]

theorem step_of_fetchFault {s : State} {p : Option Key} (hreq : s.nextRequest = some (.cycle p)) (hf : s.fault = none)
    (hfetch : fetch s = none) :
    step s =
      .next (((s.dropRequest.setPress p).setFault (some .outOfBounds)).setReply (.fault .outOfBounds)).endCycle := by
  have hrunning : (s.dropRequest.setPress p).fault = none := hf
  have hfetch' : fetch (s.dropRequest.setPress p) = none := (fetch_congr rfl rfl).trans hfetch
  rw [step_of_cycle hreq, runCycle_fetchFault hrunning hfetch', raise_eq, mapNext_next]

theorem fetch_eq_none_of_outOfRange {s : State} (h : s.pc.toNat + 1 > 4095) : fetch s = none := by
  rw [Option.eq_none_iff_forall_ne_some]
  intro w hw
  have := (fetch_eq_some_iff.mp hw).1
  omega

/-- The frame of a fault, with the request and the press used up. -/
theorem keeps_raised (s : State) (p : Option Key) (f : Fault) :
    Keeps { fault := True } s.endCycle (((s.setPress p).setFault (some f)).setReply (.fault f)).endCycle :=
  Keeps.endCycle (keeps_raise f _)

/-! ## The statements -/

/-- Settles O36: the fetch in range is the big-endian word at `pc`. -/
theorem stepRunsDecodedInstruction : Obligations.StepRunsDecodedInstruction := by
  unfold Obligations.StepRunsDecodedInstruction
  intro s p hreq hrunning hrange
  exact step_runs_fetched hreq hrunning (fetch_eq_some_iff.mpr ⟨by omega, rfl⟩)

/-- Settles O38: the check of the second byte's address fails, so the Cycle is the fault OutOfBounds. -/
theorem fetchOutOfRangeFaults : Obligations.FetchOutOfRangeFaults := by
  unfold Obligations.FetchOutOfRangeFaults
  intro s p hreq hrunning hrange
  exact ⟨_, step_of_fetchFault hreq hrunning (fetch_eq_none_of_outOfRange hrange), rfl, rfl, by simp,
    keeps_raised s.dropRequest p _⟩

/-- Settles O39: the halted Cycle only answers. -/
theorem haltedCycleReportsSameFault : Obligations.HaltedCycleReportsSameFault := by
  unfold Obligations.HaltedCycleReportsSameFault
  intro s p f hreq hf
  exact ⟨_, step_of_halted hreq hf, rfl, by simp, keeps_answered s.dropRequest p _⟩

/-- Settles O40: halted and out of range are faults, and an instruction has the three ends of `exec_ends`. -/
theorem cycleHasOneOfThreeOutcomes : Obligations.CycleHasOneOfThreeOutcomes := by
  unfold Obligations.CycleHasOneOfThreeOutcomes
  intro s p hreq
  cases hf : s.fault with
  | some f =>
    exact ⟨_, step_of_halted hreq hf, .inr (.inr ⟨f, rfl, hf, by simp, Keeps.endCycle ((Keeps.refl _ _).setReply _)⟩)⟩
  | none =>
    cases hw : fetch s with
    | none =>
      exact ⟨_, step_of_fetchFault hreq hf hw, .inr (.inr ⟨_, rfl, rfl, by simp, keeps_raised s.dropRequest p _⟩)⟩
    | some w =>
      rw [step_runs_fetched hreq hf hw]
      obtain ⟨f, -, he⟩ | ⟨-, hpress, ⟨x, hx⟩, he⟩ | ⟨-, u, hu⟩ := exec_ends (decodeWord w) (s.dropRequest.setPress p)
      · rw [he]
        exact ⟨_, rfl, .inr (.inr ⟨f, rfl, rfl, by simp, keeps_raised s.dropRequest p f⟩)⟩
      · rw [he]
        exact ⟨_, rfl, .inr (.inl ⟨rfl, hpress, ⟨hf, w, x, hw, hx⟩, by simp, keeps_answered s.dropRequest p _⟩)⟩
      · have hkeeps := hu.keeps
        rw [writesOf_presented] at hkeeps
        rw [hu.ends, nextPc_presented]
        exact ⟨_, rfl, .inl ⟨rfl, rfl, hu.fault.trans hf, w, rfl, rfl, Keeps.endCycle (hkeeps.complete _)⟩⟩

/-- Settles O42: the Cycle is the jump back to `pc`, and it leaves memory and the latch alone. -/
theorem endOfRunIsStable : Obligations.EndOfRunIsStable := by
  unfold Obligations.EndOfRunIsStable
  rintro s p ⟨hf, w, nnn, hw, hdecode, htarget⟩ hreq
  have hstep := step_runs_fetched hreq hf hw
  rw [hdecode, exec_jp] at hstep
  refine ⟨_, hstep, rfl, htarget, Keeps.endCycle ((Keeps.refl _ _).complete _), hf, w, nnn, ?_, hdecode, rfl⟩
  rw [← hw]
  exact fetch_congr htarget rfl

end Sys2Proof.Machine
end

section
/-! Placing a word for the next step, and fetching what was stored (20_memory.md R64, R74; log entry 29). -/

namespace Sys2Proof.Machine

/-! ## The two bytes of a fetched word -/

@[simp] theorem firstByte_wordOfBytes (a b : Byte) : firstByte (wordOfBytes a b) = a := by
  have := b.isLt
  apply BitVec.eq_of_toNat_eq
  rw [toNat_firstByte, toNat_wordOfBytes]
  omega

@[simp] theorem secondByte_wordOfBytes (a b : Byte) : secondByte (wordOfBytes a b) = b := by
  have := b.isLt
  apply BitVec.eq_of_toNat_eq
  rw [toNat_secondByte, toNat_wordOfBytes]
  omega

/-- A fetch in range reads the bytes that memory holds. -/
theorem nextFetchReads_of_read {t : State} {a : Nat} {v : Byte} (hrange : t.pc.toNat + 1 ≤ 4095)
    (hread : t.mem.read a = v) : NextFetchReads t a v := by
  refine ⟨_, fetch_eq_some_iff.mpr ⟨by omega, rfl⟩, ?_, ?_⟩
  · rintro rfl
    rw [wordAt, firstByte_wordOfBytes, hread]
  · rintro rfl
    rw [wordAt, secondByte_wordOfBytes, hread]

/-- A store that answers Advanced passed its bounds check. -/
theorem faultCause_eq_none_of_advanced {i : Instr} {s t : State} (h : exec i s = .next t) (hreply : t.reply = .advanced) :
    faultCause i s = none := by
  obtain ⟨f, -, rfl⟩ | ⟨hcause, -⟩ | ⟨hcause, -⟩ := exec_next_cases h
  · cases hreply
  · exact hcause
  · exact hcause

/-- Settles O41: the store passed its check, its run is in memory, and the fetch reads memory. -/
theorem storeIsSeenByNextFetch : Obligations.StoreIsSeenByNextFetch := by
  unfold Obligations.StoreIsSeenByNextFetch
  intro x s t hwf hreply hfetch
  constructor
  · intro hexec
    have hrange : s.idx.toNat + x.val ≤ 4095 := by
      simpa [faultCause] using faultCause_eq_none_of_advanced hexec hreply
    obtain ⟨t', hexec', hstored, -, -, hkeeps⟩ := exec_stRegs_dumps hwf hrange
    obtain rfl := Host.Outcome.next.inj (hexec'.symm.trans hexec)
    exact ⟨fun k hk => nextFetchReads_of_read hfetch (hstored k hk),
      fun a ha => nextFetchReads_of_read hfetch (hkeeps.byte a fun hin => by omega)⟩
  · intro hexec
    have hrange : s.idx.toNat + 2 ≤ 4095 := by
      simpa [faultCause] using faultCause_eq_none_of_advanced hexec hreply
    obtain ⟨t', hexec', h0, h1, h2, -, -, hkeeps⟩ := exec_ldB_stores_digits hwf hrange
    obtain rfl := Host.Outcome.next.inj (hexec'.symm.trans hexec)
    have hbyte : ∀ {a n : Nat}, (t'.mem.read a).toNat = n → NextFetchReads t' a (BitVec.ofNat 8 n) := by
      rintro a n rfl
      exact nextFetchReads_of_read hfetch (by simp)
    exact ⟨hbyte h0, hbyte h1, hbyte h2,
      fun a ha => nextFetchReads_of_read hfetch (hkeeps.byte a fun hin => by omega)⟩

/-! ## Placing a word -/

theorem toNat_placeAt_le (s : State) : s.placeAt.toNat + 2 ≤ 4096 := by
  unfold State.placeAt State.fetchable
  split_ifs with h
  · simpa [runInRange_iff, Config.instrBytes] using h
  · decide

theorem fetch_placeWord {s : State} (hwf : s.mem.wf = true) (w : Word) : fetch (s.placeWord w) = some w := by
  have hread := Memory.read_writeRun_inside s.placeAt.toNat [firstByte w, secondByte w] hwf (toNat_placeAt_le s)
  refine fetch_eq_some_iff.mpr ⟨toNat_placeAt_le s, ?_⟩
  rw [State.placeWord_mem, State.placeWord_pc, wordAt, hread 1 (by simp)]
  have hfirst := hread 0 (by simp)
  rw [Nat.add_zero] at hfirst
  rw [hfirst]
  exact wordOfBytes_bytes w

/-- The next request after placing is the Cycle that stood first, or one put there. -/
theorem nextRequest_placeWord (s : State) (w : Word) : ∃ p, (s.placeWord w).nextRequest = some (.cycle p) := by
  rw [State.nextRequest, State.placeWord_pending, State.cycleFirst]
  split
  next p hreq => exact ⟨p, hreq⟩
  all_goals exact ⟨s.press, rfl⟩

/-- Settles O37: the placed word is fetched, and the host's reading of the table word is the decoder on it. -/
theorem placedWordRunsNext : Obligations.PlacedWordRunsNext := by
  unfold Obligations.PlacedWordRunsNext
  intro s w i hwf hdecode
  obtain ⟨p, hreq⟩ := nextRequest_placeWord s (tableWord 16 w)
  have hi : decodeWord (tableWord 16 w) = i := by simpa [decodeTableWord_eq] using hdecode
  refine ⟨p, hreq, ?_⟩
  rw [← hi]
  exact step_runs_fetched hreq rfl (fetch_placeWord hwf _)

end Sys2Proof.Machine
end

section
/-! Runs of steps: Ticks, a core blocked on a key, and a host that asks for nothing (44_keypad_timers.md R219, R223; 10_state.md
R33; 60_exceptions.md R252). -/

namespace Sys2Proof.Machine

/-! ## Steps in a row -/

theorem stepN_succ_of_next {s t : State} (h : step s = .next t) (k : Nat) : stepN (k + 1) s = stepN k t := by
  simp only [stepN, h]

/-- A run goes on from where it stopped. -/
theorem stepN_add {n : Nat} {s t : State} (h : stepN n s = .next t) (k : Nat) : stepN (n + k) s = stepN k t := by
  induction n generalizing s with
  | zero =>
    obtain rfl := Host.Outcome.next.inj h
    rw [Nat.zero_add]
  | succ n ih =>
    cases hs : step s with
    | next u =>
      rw [stepN_succ_of_next hs] at h
      rw [Nat.succ_add, stepN_succ_of_next hs, ih h]
    | fault f => simp only [stepN, hs, reduceCtorEq] at h
    | refused r => simp only [stepN, hs, reduceCtorEq] at h

theorem stepN_of_none {s : State} (h : s.pending = []) (k : Nat) : stepN k s = .next s := by
  induction k with
  | zero => rfl
  | succ k ih => rw [stepN_succ_of_next (step_of_none h), ih]

/-! ## One Tick -/

theorem countDown_zero : countDown 0x00#8 = 0x00#8 := rfl

theorem toNat_countDown_succ {v : Byte} (h : v ≠ 0x00#8) : (countDown v).toNat + 1 = v.toNat := by
  have hpos : v.toNat ≠ 0 := fun h0 => h (BitVec.eq_of_toNat_eq h0)
  rw [toNat_countDown]
  omega

theorem soundActive_iff (s : State) : soundActive s = true ↔ 0 < s.st.toNat := by
  rw [soundActive, bne_iff_ne, Nat.pos_iff_ne_zero, Ne, Ne, ← BitVec.toNat_inj]
  rfl

theorem keeps_tick (s : State) : Keeps { dt := True, st := True } s s.tick :=
  ((Keeps.refl _ s).setDt _ trivial).setSt _ trivial

/-- Settles O34: the Tick counts each timer down on its own. -/
theorem tickDecrementsNonzeroTimers : Obligations.TickDecrementsNonzeroTimers := by
  unfold Obligations.TickDecrementsNonzeroTimers
  intro s hreq
  refine ⟨_, step_of_tick hreq, toNat_countDown_succ, fun h => ?_, toNat_countDown_succ, fun h => ?_, by simp,
    (keeps_tick s.dropRequest).setReply _⟩
  · rw [← countDown_zero, ← h]
    rfl
  · rw [← countDown_zero, ← h]
    rfl

/-- Settles O35, by induction on the number of Ticks: each takes 1 from what is left. -/
theorem ticksCountDownToZero : Obligations.TicksCountDownToZero := by
  unfold Obligations.TicksCountDownToZero
  intro n
  induction n with
  | zero => exact fun s rest hpending => ⟨s, rfl, rfl, rfl, soundActive_iff s, hpending, rfl, rfl, rfl⟩
  | succ n ih =>
    intro s rest hpending
    have hpending' : s.pending = .tick :: (List.replicate n .tick ++ rest) := hpending
    have hrest : (s.dropRequest.tick.setReply .ok).pending = List.replicate n .tick ++ rest := by
      rw [State.setReply_pending, State.tick_pending, State.dropRequest_pending, hpending', List.tail_cons]
    obtain ⟨t, hrun, hdt, hst, hsound, ht, hpc, hregs, hfault⟩ := ih _ rest hrest
    simp only [State.setReply_dt, State.tick_dt, State.dropRequest_dt, toNat_countDown] at hdt
    simp only [State.setReply_st, State.tick_st, State.dropRequest_st, toNat_countDown] at hst hsound
    refine ⟨t, ?_, by omega, by omega, hsound.trans (by omega), ht, hpc, hregs, hfault⟩
    rw [stepN_succ_of_next (step_of_tick (nextRequest_cons hpending')), hrun]

/-! ## A core that waits for a key -/

/-- The two states agree on the core but for its timers. -/
structure SameButTimers (s t : State) : Prop where
  pc : t.pc = s.pc
  regs : t.regs = s.regs
  idx : t.idx = s.idx
  sp : t.sp = s.sp
  stack : t.stack = s.stack
  fb : t.fb = s.fb
  mem : t.mem = s.mem
  fault : t.fault = s.fault

theorem SameButTimers.trans {s t u : State} (h : SameButTimers s t) (h' : SameButTimers t u) : SameButTimers s u :=
  ⟨h'.pc.trans h.pc, h'.regs.trans h.regs, h'.idx.trans h.idx, h'.sp.trans h.sp, h'.stack.trans h.stack,
    h'.fb.trans h.fb, h'.mem.trans h.mem, h'.fault.trans h.fault⟩

/-- Whether a core is blocked on a key, its timers do not say. -/
theorem BlockedOnKey.congr {s t : State} (h : BlockedOnKey s) (hsame : SameButTimers s t) : BlockedOnKey t := by
  obtain ⟨hf, w, x, hw, hx⟩ := h
  exact ⟨hsame.fault.trans hf, w, x, (fetch_congr hsame.pc hsame.mem).trans hw, hx⟩

/-- The Cycle with no press is Blocked. -/
theorem step_of_blocked {s : State} (h : BlockedOnKey s) (hreq : s.nextRequest = some (.cycle none)) :
    step s = .next ((s.dropRequest.setPress none).setReply .blocked).endCycle := by
  obtain ⟨hf, w, x, hw, hx⟩ := h
  rw [step_runs_fetched hreq hf hw, hx, exec_ldVxK_of_no_press rfl, block_eq, mapNext_next]

theorem step_of_blocked_or_tick {s : State} {r : Request} {rs : List Request} (h : BlockedOnKey s)
    (hpending : s.pending = r :: rs) (hr : r = .cycle none ∨ r = .tick) :
    ∃ t, step s = .next t ∧ SameButTimers s t ∧ t.pending = rs := by
  have hreq := nextRequest_cons hpending
  have hdrop : s.dropRequest.pending = rs := by rw [State.dropRequest_pending, hpending, List.tail_cons]
  obtain rfl | rfl := hr
  · exact ⟨_, step_of_blocked h hreq, by constructor <;> simp, by simpa using hdrop⟩
  · exact ⟨_, step_of_tick hreq, by constructor <;> simp, by simpa using hdrop⟩

/-- The run of such requests, by induction on their list. -/
theorem stepN_of_blocked {rs : List Request} {s : State} (h : BlockedOnKey s) (hpending : s.pending = rs)
    (hrs : ∀ r ∈ rs, r = .cycle none ∨ r = .tick) :
    ∃ t, stepN rs.length s = .next t ∧ SameButTimers s t ∧ t.pending = [] := by
  induction rs generalizing s with
  | nil => exact ⟨s, rfl, ⟨rfl, rfl, rfl, rfl, rfl, rfl, rfl, rfl⟩, hpending⟩
  | cons r rs ih =>
    obtain ⟨u, hstep, hsame, hu⟩ := step_of_blocked_or_tick h hpending (hrs r (by simp))
    obtain ⟨t, hrun, hsame', ht⟩ := ih (h.congr hsame) hu fun q hq => hrs q (by simp [hq])
    refine ⟨t, ?_, hsame.trans hsame', ht⟩
    rw [List.length_cons, stepN_succ_of_next hstep, hrun]

/-- Settles O32: no request of the run touches anything but the timers, so the core is still blocked. -/
theorem blockedCoreStaysBlocked : Obligations.BlockedCoreStaysBlocked := by
  unfold Obligations.BlockedCoreStaysBlocked
  intro rs s h hpending hrs
  obtain ⟨t, hrun, hsame, ht⟩ := stepN_of_blocked h hpending hrs
  exact ⟨t, hrun, h.congr hsame, hsame.pc, ht, hsame.regs, hsame.idx, hsame.sp, hsame.stack, hsame.fb,
    fun a => by rw [hsame.mem], hsame.fault⟩

/-- Settles O57: every further step is idle. -/
theorem silentHostLeavesState : Obligations.SilentHostLeavesState := by
  unfold Obligations.SilentHostLeavesState
  intro n k s t hrun hnone
  rw [stepN_add hrun, stepN_of_none hnone]

end Sys2Proof.Machine
end

section
/-! The host's requests and its read ports (20_memory.md R76 to R78; 10_state.md R34; 44_keypad_timers.md R215;
70_reset_and_hazards.md R280, R293). -/

namespace Sys2Proof.Machine

/-! ## Reset and the key states -/

theorem reset_fb_pixel (px : Fin Config.fbW) (py : Fin Config.fbH) : State.reset.fb.pixel px py = false :=
  Framebuffer.pixel_cleared px py

theorem reset_reg (x : RegIdx) : State.reset.reg x = 0x00#8 := Vector.getElem_replicate x.isLt

theorem reset_stack (k : Fin 16) : State.reset.stack[k.val] = 0x0000#16 := Vector.getElem_replicate k.isLt

/-- Settles O50: every field of the reset state is written out in it. -/
theorem resetStateIsZeroedAtEntry : Obligations.ResetStateIsZeroedAtEntry := by
  unfold Obligations.ResetStateIsZeroedAtEntry
  exact ⟨reset_reg, rfl, rfl, rfl, reset_stack, rfl, rfl, reset_fb_pixel, fun _ => rfl, rfl⟩

theorem step_of_reset {s : State} (h : s.nextRequest = some .reset) :
    step s = .next (s.dropRequest.resetCore.setReply .ok) := by
  rw [step_of_request h]
  rfl

/-- Settles O51: the core's part of the next state is the reset state's, and the host's part stays. -/
theorem resetRequestResetsEveryState : Obligations.ResetRequestResetsEveryState := by
  unfold Obligations.ResetRequestResetsEveryState
  intro s hreq
  exact ⟨_, step_of_reset hreq, reset_reg, rfl, rfl, rfl, reset_stack, rfl, rfl, rfl, reset_fb_pixel, fun _ => rfl, rfl,
    rfl, by simp, by simp⟩

theorem step_of_setKeys {s : State} {keys : Vector Bool 16} (h : s.nextRequest = some (.setKeys keys)) :
    step s = .next ((s.dropRequest.setKeys keys).setReply .ok) := by
  rw [step_of_request h]
  rfl

/-- Settles O54: the step takes the key states over and answers. -/
theorem hostWritesKeyStates : Obligations.HostWritesKeyStates := by
  unfold Obligations.HostWritesKeyStates
  intro keys s hreq
  exact ⟨_, step_of_setKeys hreq, by simp, (Keeps.refl _ _).setReply _⟩

/-! ## Loads -/

section
variable {addr : Nat} {bytes : List Byte} {s : State}

theorem preload_places (hwf : s.mem.wf = true) (hstarted : s.started = false)
    (hrange : runInRange addr bytes.length = true) :
    ∃ t, preload addr bytes s = .next t ∧ t.reply = .ok ∧
      (∀ k (hk : k < bytes.length), t.mem.read (addr + k) = bytes[k]) ∧ t.pc = s.pc ∧
      Keeps { byte := fun a => addr ≤ a ∧ a < addr + bytes.length } s t := by
  obtain ⟨hstarted', -⟩ | ⟨-, -, he⟩ | ⟨-, hrange', -⟩ := preload_cases addr bytes s
  · simp [hstarted] at hstarted'
  · have hkeeps : Keeps { byte := fun a => addr ≤ a ∧ a < addr + bytes.length } s
        (s.setMem (s.mem.writeRun addr bytes)) :=
      (Keeps.refl _ s).writeRun addr bytes fun _ hlow hhigh => ⟨hlow, hhigh⟩
    refine ⟨_, he, rfl, fun k hk => ?_, rfl, hkeeps.setReply _⟩
    rw [runInRange_iff] at hrange
    exact Memory.read_writeRun_inside addr bytes hwf (by omega) k hk
  · simp [hrange] at hrange'

theorem preload_turnedAway (hstarted : s.started = false) (hrange : runInRange addr bytes.length = false) :
    ∃ t, preload addr bytes s = .next t ∧ t.reply = .outOfBounds ∧ t.pc = s.pc ∧ Keeps {} s t := by
  obtain ⟨hstarted', -⟩ | ⟨-, hrange', -⟩ | ⟨-, -, he⟩ := preload_cases addr bytes s
  · simp [hstarted] at hstarted'
  · simp [hrange] at hrange'
  · exact ⟨_, he, rfl, rfl, (Keeps.refl _ s).setReply _⟩

theorem preload_refused (hstarted : s.started = true) : preload addr bytes s = .refused .hostLoadDuringRun :=
  if_pos hstarted

end

/-- Settles O53: the three answers to a load, with its range in the statement's terms. -/
theorem preloadPlacesBytes : Obligations.PreloadPlacesBytes := by
  unfold Obligations.PreloadPlacesBytes
  intro addr bytes s hwf hreq
  have hstep : step s = preload addr bytes s.dropRequest := step_of_request hreq
  rw [hstep]
  refine ⟨fun hstarted hfits => ?_, fun hstarted hlen hlong => ?_, preload_refused (s := s.dropRequest)⟩
  · exact preload_places hwf hstarted ((runInRange_iff _ _).mpr (by omega))
  · exact preload_turnedAway hstarted ((runInRange_false_iff _ _).mpr (by omega))

/-- Settles O52: LoadProgram is Preload at 0x200, where 3584 bytes are left. -/
theorem loadProgramPlacesImage : Obligations.LoadProgramPlacesImage := by
  unfold Obligations.LoadProgramPlacesImage
  intro bytes s hwf hreq
  have hstep : step s = preload 0x200 bytes s.dropRequest := step_of_request hreq
  rw [hstep]
  refine ⟨fun hstarted hfits => ?_, fun hstarted hlong => ?_, preload_refused (s := s.dropRequest)⟩
  · exact preload_places hwf hstarted ((runInRange_iff _ _).mpr (by omega))
  · exact preload_turnedAway hstarted ((runInRange_false_iff _ _).mpr (by omega))

/-! ## The read ports -/

theorem hostRead_regs_outOfRange {addr : Nat} (h : addr ≥ 16) (s : State) :
    hostRead .regs addr s = .error .outOfBounds :=
  dif_neg (Nat.not_lt.mpr h)

theorem hostRead_stack_outOfRange {addr : Nat} (h : addr ≥ 16) (s : State) :
    hostRead .stack addr s = .error .outOfBounds :=
  dif_neg (Nat.not_lt.mpr h)

/-- The depth fits the port. -/
theorem toNat_dbgZext_sp (s : State) : (dbgZext s.sp.val).toNat = s.sp.val :=
  toNat_dbgZext (Nat.lt_trans s.sp.isLt (by decide))

/-- Settles O55: the answer of each select, and that zero extension keeps its value. -/
theorem hostReadPortAnswersState : Obligations.HostReadPortAnswersState := by
  unfold Obligations.HostReadPortAnswersState
  intro s addr
  refine ⟨fun k => ?_, fun k => hostRead_stack k s, fun h => ?_, rfl, rfl, ?_, ?_, ?_, fun h => ?_, fun h => ?_⟩
  · exact ⟨_, hostRead_regs k s, toNat_dbgZext_byte _⟩
  · exact ⟨_, hostRead_mem h s, toNat_dbgZext_byte _⟩
  · exact ⟨_, rfl, toNat_dbgZext_sp s⟩
  · exact ⟨_, rfl, toNat_dbgZext_byte _⟩
  · exact ⟨_, rfl, toNat_dbgZext_byte _⟩
  · exact ⟨hostRead_regs_outOfRange h s, hostRead_stack_outOfRange h s⟩
  · exact hostRead_mem_outOfRange h s

section
variable {s t : State} (h : ∀ sel addr, hostRead sel addr t = hostRead sel addr s)
include h

theorem regs_eq_of_hostRead : t.regs = s.regs := by
  refine regs_ext s t fun x => dbgZext_byte_inj ?_
  simpa only [hostRead_regs, Except.ok.injEq] using h .regs x.val

theorem stack_eq_of_hostRead : t.stack = s.stack := by
  refine Vector.ext fun k hk => ?_
  simpa only [hostRead_stack ⟨k, hk⟩, Except.ok.injEq] using h .stack k

theorem sp_eq_of_hostRead : t.sp = s.sp := by
  have hsp := h .sp 0
  rw [hostRead_sp, hostRead_sp, Except.ok.injEq] at hsp
  apply Fin.ext
  rw [← toNat_dbgZext_sp t, hsp, toNat_dbgZext_sp s]

theorem dt_eq_of_hostRead : t.dt = s.dt := dbgZext_byte_inj (Except.ok.inj (h .dt 0))

theorem st_eq_of_hostRead : t.st = s.st := dbgZext_byte_inj (Except.ok.inj (h .st 0))

/-- The port reads the bytes up to 4095, and canonical memory lists none above. -/
theorem mem_eq_of_hostRead (hs : s.mem.wf = true) (ht : t.mem.wf = true) : t.mem = s.mem := by
  refine Memory.eq_of_read ht hs fun a => ?_
  by_cases ha : a ≤ 4095
  · have hmem := h .mem a
    rw [hostRead_mem ha, hostRead_mem ha, Except.ok.injEq] at hmem
    exact dbgZext_byte_inj hmem
  · rw [Memory.read_above ht (by omega), Memory.read_above hs (by omega)]

end

/-- Settles O56: each select fixes its piece of the state. -/
theorem hostReadPortsSeeWholeState : Obligations.HostReadPortsSeeWholeState := by
  unfold Obligations.HostReadPortsSeeWholeState
  intro s t hs ht hread hpixel hkind
  exact ⟨regs_eq_of_hostRead hread, Except.ok.inj (hread .idx 0), Except.ok.inj (hread .pc 0), stack_eq_of_hostRead hread,
    sp_eq_of_hostRead hread, dt_eq_of_hostRead hread, st_eq_of_hostRead hread, Framebuffer.ext_pixel hpixel,
    mem_eq_of_hostRead hread hs ht, faultKind_inj hkind⟩

end Sys2Proof.Machine
end

section
/-! The instructions one by one: control transfer, arithmetic and logic, index register, keys and timers
(40_cycle_and_control.md R122 to R131; 41_alu.md R151 to R161; 42_index_memory.md R180 to R182; 44_keypad_timers.md R217 to
R222). -/

namespace Sys2Proof.Machine

/-! ## Words and shared ends -/

/-- The trailing nibble of groups 5 and 9 is not looked at (30_encoding.md R108), so any `n` is read as the canonical 0. -/
theorem decodeWord_seReg (x y : RegIdx) (n : BitVec 4) : decodeWord (formatR 0x5#4 x y n) = .seReg x y := by
  simp [decodeWord]

theorem decodeWord_sneReg (x y : RegIdx) (n : BitVec 4) : decodeWord (formatR 0x9#4 x y n) = .sneReg x y := by
  simp [decodeWord]

/-- `raise_sets_only_latch`, with what the latch then holds. -/
theorem raise_latches (f : Fault) (s : State) :
    ∃ t, raise f s = .next t ∧ t.fault = some f ∧ t.reply = .fault f ∧ t.pc = s.pc ∧ Keeps { fault := True } s t :=
  ⟨_, raise_eq f s, rfl, rfl, rfl, keeps_raise f s⟩

/-- Every instruction that writes the index register ends this way; only the value differs. -/
theorem advance_setIdx_sets_only_idx (v : Word) (s : State) :
    ∃ t, advance (s.setIdx v) = .next t ∧ t.idx = v ∧ t.pc = s.pc + 2 ∧ t.reply = .advanced ∧ Keeps { idx := True } s t :=
  ⟨_, advance_eq _, rfl, rfl, rfl, ((Keeps.refl _ s).setIdx v trivial).complete _⟩

/-- Every flag-producing instruction ends this way (41_alu.md R150): the result is written last, so it is what `x` holds even
when `x` is VF. -/
theorem flagThenResult_sets (x : RegIdx) (flag result : Byte) (s : State) :
    ∃ t, flagThenResult x flag result s = .next t ∧ t.reg x = result ∧ (x ≠ 15 → t.reg 15 = flag) ∧
      t.pc = s.pc + 2 ∧ t.reply = .advanced ∧ Keeps { reg := fun r => r = x ∨ r = 15 } s t := by
  have hkeeps : Keeps { reg := fun r => r = x ∨ r = 15 } s ((s.setReg 15 flag).setReg x result) :=
    ((Keeps.refl _ s).setReg 15 flag (Or.inr rfl)).setReg x result (Or.inl rfl)
  refine ⟨_, flagThenResult_eq x flag result s, State.reg_setReg_same _ x result, fun hx => ?_, rfl, rfl,
    hkeeps.complete _⟩
  exact (State.reg_setReg_ne _ x 15 result hx.symm).trans (State.reg_setReg_same s 15 flag)

/-! ## Control transfer -/

/-- CALL with room on the stack (R125). -/
theorem exec_call_of_room (nnn : Addr12) {s : State} (h : s.sp.val < Config.stackDepth) :
    exec (.call nnn) s = completeAt (addr16 nnn) (s.push (s.pc + 2) h) :=
  dif_pos h

theorem exec_call_of_full (nnn : Addr12) {s : State} (h : s.sp.val = 16) :
    exec (.call nnn) s = raise .stackOverflow s :=
  dif_neg (by simp [Config.stackDepth, h])

theorem exec_ret_of_nonempty {s : State} (h : s.sp.val ≠ 0) : exec .ret s = completeAt s.top s.pop := if_neg h

theorem exec_ret_of_empty {s : State} (h : s.sp.val = 0) : exec .ret s = raise .stackUnderflow s := if_pos h

theorem sp_lt_of_ne_full {s : State} (h : s.sp.val ≠ 16) : s.sp.val < Config.stackDepth :=
  Nat.lt_of_le_of_ne (Nat.le_of_lt_succ s.sp.isLt) h

/-- A push writes one entry (10_state.md R24). -/
theorem State.getElem_stack_push (s : State) (v : Word) (h : s.sp.val < Config.stackDepth) (k : Fin 16) :
    (s.push v h).stack[k.val] = if k.val = s.sp.val then v else s.stack[k.val] := by
  simp only [State.push_stack, Vector.getElem_set, eq_comm]

/-- The newest of `k + 1` entries is entry `k`. -/
theorem State.top_eq {s : State} {k : Fin 16} (h : s.sp.val = k.val + 1) : s.top = s.stack[k.val] := by
  simp only [State.top, h, Nat.add_sub_cancel]

/-- Settles O7: the push, then the jump; a full stack faults. -/
theorem callPushesAndJumps : Obligations.CallPushesAndJumps := by
  unfold Obligations.CallPushesAndJumps
  intro nnn s
  refine ⟨Laws.RoundTrip.call nnn rfl, fun hroom => ?_, fun hfull => ?_⟩
  · have hlt := sp_lt_of_ne_full hroom
    exact ⟨_, exec_call_of_room nnn hlt, rfl, s.getElem_stack_push (s.pc + 2) hlt, toNat_addr16 nnn, rfl,
      ((Keeps.refl _ s).push _ hlt trivial).complete _⟩
  · rw [exec_call_of_full nnn hfull]
    exact raise_latches .stackOverflow s

/-- Settles O8: the pop, then the jump to what it gave; an empty stack faults. -/
theorem returnPopsPc : Obligations.ReturnPopsPc := by
  unfold Obligations.ReturnPopsPc
  intro s
  refine ⟨decodeWord_ret, fun k hk => ?_, fun hempty => ?_⟩
  · have hne : s.sp.val ≠ 0 := by omega
    have hsp : s.pop.sp.val = k.val := Nat.sub_eq_of_eq_add hk
    exact ⟨_, exec_ret_of_nonempty hne, State.top_eq hk, hsp, rfl, rfl, ((Keeps.refl _ s).pop trivial).complete _⟩
  · rw [exec_ret_of_empty hempty]
    exact raise_latches .stackUnderflow s

/-- The newest entry and a pop are read off the stack and its depth alone. -/
theorem State.top_congr {s t : State} (hsp : t.sp = s.sp) (hstack : t.stack = s.stack) : t.top = s.top := by
  simp only [State.top, hsp, hstack]

theorem State.sp_pop_congr {s t : State} (hsp : t.sp = s.sp) : t.pop.sp = s.pop.sp := by
  simp only [State.pop_sp, hsp]

/-- Settles O9: a pop undoes a push, whatever the rest of the state has become. -/
theorem callThenReturnResumes : Obligations.CallThenReturnResumes := by
  unfold Obligations.CallThenReturnResumes
  intro nnn s t u hroom hcall hsp hstack
  have hlt := sp_lt_of_ne_full hroom
  obtain rfl := completeAt_next ((exec_call_of_room nnn hlt).symm.trans hcall)
  have hsp' : u.sp = (s.push (s.pc + 2) hlt).sp := hsp
  have hstack' : u.stack = (s.push (s.pc + 2) hlt).stack := hstack
  have hne : u.sp.val ≠ 0 := by
    rw [hsp', State.push_sp]
    exact Nat.succ_ne_zero _
  refine ⟨_, exec_ret_of_nonempty hne, ?_, ?_, rfl⟩
  · exact (State.top_congr hsp' hstack').trans (s.top_push (s.pc + 2) hlt)
  · exact (State.sp_pop_congr hsp').trans (s.sp_pop_push (s.pc + 2) hlt)

/-- Settles O11: each skip is `skipIf` on its own comparison of VX with VY. -/
theorem skipOnRegisters : Obligations.SkipOnRegisters := by
  unfold Obligations.SkipOnRegisters
  intro x y n s
  refine ⟨decodeWord_seReg x y n, decodeWord_sneReg x y n, ?_, ?_⟩
  · rw [exec_seReg]
    exact skipIf_sets_only_pc beq_iff_eq.mpr beq_eq_false_iff_ne.mpr s
  · rw [exec_sneReg]
    exact skipIf_sets_only_pc bne_iff_ne.mpr bne_eq_false_iff_eq.mpr s

/-- Settles O12: the target's sum fits 16 bits. -/
theorem jumpWithOffset : Obligations.JumpWithOffset := by
  unfold Obligations.JumpWithOffset
  intro nnn s
  obtain ⟨t, hnext, hpc, hend⟩ := completeAt_sets_only_pc (addr16 nnn + (s.reg 0).setWidth 16) s
  refine ⟨Laws.RoundTrip.jpV0 nnn rfl, t, (exec_jpV0 nnn s).trans hnext, ?_, hend⟩
  rw [hpc, addr16_add_setWidth]
  exact toNat_nextPc_jpV0 nnn s

/-- Settles O13: UNKNOWN is the one end `raise`. -/
theorem unknownWordFaults : Obligations.UnknownWordFaults := by
  unfold Obligations.UnknownWordFaults
  intro w s
  exact ⟨fun h => decodeWord_eq_unknown_iff.mpr ⟨rfl, h⟩, raise_latches .unknownInstruction s⟩

/-- Settles O14: SYS is the one end `raise`. -/
theorem sysFaults : Obligations.SysFaults := by
  unfold Obligations.SysFaults
  intro nnn s
  refine ⟨fun hcls hret => Laws.RoundTrip.sys nnn ?_, raise_latches .unknownInstruction s⟩
  simp [Instr.wf, hcls, hret]

/-! ## Arithmetic, logic, shifts -/

/-- Settles O15: each load is one register write. -/
theorem loadAndCopySetRegister : Obligations.LoadAndCopySetRegister := by
  unfold Obligations.LoadAndCopySetRegister
  intro x y nn s
  exact ⟨Laws.RoundTrip.ldImm x nn rfl, Laws.RoundTrip.ldReg x y rfl, advance_setReg_sets_only_reg x nn s,
    advance_setReg_sets_only_reg x (s.reg y) s⟩

/-- Settles O16: one register write, of a sum of bytes. -/
theorem addImmediateWrapsWithoutFlag : Obligations.AddImmediateWrapsWithoutFlag := by
  unfold Obligations.AddImmediateWrapsWithoutFlag
  intro x nn s
  obtain ⟨t, hnext, hreg, hend⟩ := advance_setReg_sets_only_reg x (s.reg x + nn) s
  refine ⟨Laws.RoundTrip.addImm x nn rfl, t, hnext, ?_, hend⟩
  rw [hreg, BitVec.toNat_add]

/-- Settles O17: one register write each, of a bitwise operation. -/
theorem logicActsBitwiseWithoutFlag : Obligations.LogicActsBitwiseWithoutFlag := by
  unfold Obligations.LogicActsBitwiseWithoutFlag
  intro x y s
  refine ⟨⟨Laws.RoundTrip.or x y rfl, Laws.RoundTrip.and x y rfl, Laws.RoundTrip.xor x y rfl⟩, ?_, ?_, ?_⟩
  · obtain ⟨t, hnext, hreg, hend⟩ := advance_setReg_sets_only_reg x (s.reg x ||| s.reg y) s
    exact ⟨t, hnext, fun k _ => by rw [hreg, BitVec.getLsbD_or], hend⟩
  · obtain ⟨t, hnext, hreg, hend⟩ := advance_setReg_sets_only_reg x (s.reg x &&& s.reg y) s
    exact ⟨t, hnext, fun k _ => by rw [hreg, BitVec.getLsbD_and], hend⟩
  · obtain ⟨t, hnext, hreg, hend⟩ := advance_setReg_sets_only_reg x (s.reg x ^^^ s.reg y) s
    exact ⟨t, hnext, fun k _ => by rw [hreg, BitVec.getLsbD_xor], hend⟩

/-- A flag is 1 or 0 (10_state.md R21). -/
theorem toNat_flagByte_decide (p : Prop) [Decidable p] : (flagByte (decide p)).toNat = if p then 1 else 0 := by
  by_cases h : p <;> simp [flagByte, h]

theorem toNat_sub_byte (a b : Byte) : (a - b).toNat = (a.toNat + 256 - b.toNat) % 256 := by
  have := b.isLt
  rw [BitVec.toNat_sub]
  omega

/-- SUB and SUBN are one subtraction, with the operands in the one order or the other (R158, R160). -/
theorem flagThenResult_subtracts (x : RegIdx) (a b : Byte) (s : State) :
    ∃ t, flagThenResult x (noBorrowFlag a b) (a - b) s = .next t ∧ (t.reg x).toNat = (a.toNat + 256 - b.toNat) % 256 ∧
      (x ≠ 15 → (t.reg 15).toNat = if a.toNat ≥ b.toNat then 1 else 0) ∧
      t.pc = s.pc + 2 ∧ t.reply = .advanced ∧ Keeps { reg := fun r => r = x ∨ r = 15 } s t := by
  obtain ⟨t, hnext, hreg, hflag, hend⟩ := flagThenResult_sets x (noBorrowFlag a b) (a - b) s
  refine ⟨t, hnext, ?_, fun hx => ?_, hend⟩
  · rw [hreg, toNat_sub_byte]
  · rw [hflag hx, noBorrowFlag, toNat_flagByte_decide]

/-- Settles O18: the sum of bytes, and its carry as the flag. -/
theorem addSetsCarry : Obligations.AddSetsCarry := by
  unfold Obligations.AddSetsCarry
  intro x y s
  obtain ⟨t, hnext, hreg, hflag, hend⟩ :=
    flagThenResult_sets x (carryFlag (s.reg x) (s.reg y)) (s.reg x + s.reg y) s
  refine ⟨Laws.RoundTrip.addReg x y rfl, t, hnext, ?_, fun hx => ?_, hend⟩
  · rw [hreg, BitVec.toNat_add]
  · rw [hflag hx, carryFlag, toNat_flagByte_decide]

/-- Settles O19: both are the subtraction with its no-borrow flag. -/
theorem subtractSetsNoBorrow : Obligations.SubtractSetsNoBorrow := by
  unfold Obligations.SubtractSetsNoBorrow
  intro x y s
  exact ⟨⟨Laws.RoundTrip.sub x y rfl, Laws.RoundTrip.subn x y rfl⟩, flagThenResult_subtracts x (s.reg x) (s.reg y) s,
    flagThenResult_subtracts x (s.reg y) (s.reg x) s⟩

theorem toNat_lowBitFlag (a : Byte) : (lowBitFlag a).toNat = a.toNat % 2 := by
  rw [lowBitFlag, BitVec.getLsbD, Nat.testBit_zero, toNat_flagByte_decide]
  split <;> omega

theorem toNat_highBitFlag (a : Byte) : (highBitFlag a).toNat = a.toNat / 128 := by
  have := a.isLt
  rw [highBitFlag, BitVec.getLsbD, Nat.testBit_eq_decide_div_mod_eq, toNat_flagByte_decide]
  split <;> omega

/-- Settles O20: a shift halves or doubles, and its flag is the bit that leaves. -/
theorem shiftsSetBitShiftedOut : Obligations.ShiftsSetBitShiftedOut := by
  unfold Obligations.ShiftsSetBitShiftedOut
  intro x y s
  refine ⟨⟨Laws.RoundTrip.shr x y rfl, Laws.RoundTrip.shl x y rfl⟩, ?_, ?_⟩
  · obtain ⟨t, hnext, hreg, hflag, hend⟩ := flagThenResult_sets x (lowBitFlag (s.reg x)) (s.reg x >>> 1) s
    refine ⟨t, hnext, ?_, fun hx => ?_, hend⟩
    · rw [hreg, BitVec.toNat_ushiftRight, Nat.shiftRight_one]
    · rw [hflag hx, toNat_lowBitFlag]
  · obtain ⟨t, hnext, hreg, hflag, hend⟩ := flagThenResult_sets x (highBitFlag (s.reg x)) (s.reg x <<< 1) s
    refine ⟨t, hnext, ?_, fun hx => ?_, hend⟩
    · rw [hreg, BitVec.toNat_shiftLeft, Nat.shiftLeft_eq]
    · rw [hflag hx, toNat_highBitFlag]

/-! ## The index register -/

/-- Settles O21: one write of the index register, of a zero-extended operand. -/
theorem loadIndexSetsIndex : Obligations.LoadIndexSetsIndex := by
  unfold Obligations.LoadIndexSetsIndex
  intro nnn s
  obtain ⟨t, hnext, hidx, hend⟩ := advance_setIdx_sets_only_idx (addr16 nnn) s
  exact ⟨Laws.RoundTrip.ldI nnn rfl, t, hnext, by rw [hidx, toNat_addr16], hend⟩

theorem val_lowNibble (v : Byte) : (lowNibble v).val = v.toNat % 16 := by
  simp [lowNibble]

/-- The last glyph starts at address 75, so the product fits (R182). -/
theorem toNat_fontAddr (d : Fin 16) : (fontAddr d).toNat = 5 * d.val := by
  have := d.isLt
  simp only [fontAddr, Config.fontBase, Config.fontStride, BitVec.toNat_ofNat]
  omega

/-- Settles O22: one write of the index register each, of a sum and of a glyph's address. -/
theorem addIndexAndFontSetIndex : Obligations.AddIndexAndFontSetIndex := by
  unfold Obligations.AddIndexAndFontSetIndex
  intro x s
  refine ⟨⟨Laws.RoundTrip.addI x rfl, Laws.RoundTrip.ldF x rfl⟩, ?_, ?_⟩
  · obtain ⟨t, hnext, hidx, hend⟩ := advance_setIdx_sets_only_idx (s.idx + (s.reg x).setWidth 16) s
    refine ⟨t, hnext, ?_, hend⟩
    rw [hidx, BitVec.toNat_add, BitVec.toNat_setWidth]
    omega
  · obtain ⟨t, hnext, hidx, hend⟩ := advance_setIdx_sets_only_idx (fontAddr (lowNibble (s.reg x))) s
    exact ⟨t, hnext, by rw [hidx, toNat_fontAddr, val_lowNibble], hend⟩

/-! ## Keys and timers -/

/-- Settles O30: each skip is `skipIf` on the key that the low nibble of VX names. -/
theorem skipOnKeyState : Obligations.SkipOnKeyState := by
  unfold Obligations.SkipOnKeyState
  intro x k s hk
  have hkey : lowNibble (s.reg x) = k := Fin.ext ((val_lowNibble _).trans hk.symm)
  have hdown : keyDown s x = s.keys[k.val] := by simp only [keyDown, hkey]
  refine ⟨⟨Laws.RoundTrip.skp x rfl, Laws.RoundTrip.sknp x rfl⟩, ?_, ?_⟩
  · rw [exec_skp, hdown]
    exact skipIf_sets_only_pc id id s
  · rw [exec_sknp, hdown]
    exact skipIf_sets_only_pc (Bool.not_eq_true' _).mpr (Bool.not_eq_false' ..).mpr s

/-- Settles O33: one write each, of VX or of a timer. -/
theorem timerInstructionsMoveOneByte : Obligations.TimerInstructionsMoveOneByte := by
  unfold Obligations.TimerInstructionsMoveOneByte
  intro x s
  exact ⟨⟨Laws.RoundTrip.ldVxDt x rfl, Laws.RoundTrip.ldDtVx x rfl, Laws.RoundTrip.ldStVx x rfl⟩,
    advance_setReg_sets_only_reg x s.dt s,
    ⟨_, advance_eq _, rfl, rfl, rfl, ((Keeps.refl _ s).setDt _ trivial).complete _⟩,
    ⟨_, advance_eq _, rfl, rfl, rfl, ((Keeps.refl _ s).setSt _ trivial).complete _⟩⟩

end Sys2Proof.Machine
end

section
/-! Drawing (43_display.md R202 to R204). -/

namespace Sys2Proof.Machine

/-- Settles O26: CLS writes the cleared framebuffer. -/
theorem clearScreenClearsEveryPixel : Obligations.ClearScreenClearsEveryPixel := by
  unfold Obligations.ClearScreenClearsEveryPixel
  intro s
  exact ⟨decodeWord_cls, _, advance_eq _, Framebuffer.pixel_cleared, rfl, rfl,
    ((Keeps.refl _ s).setFb _ trivial).complete _⟩

/-! ## What one draw does -/

/-- The pixels under the sprite are those its rows light. -/
theorem underSprite_iff_inRows {s : State} {x y : RegIdx} {n : Nat} {px : Fin 64} {py : Fin 32} :
    UnderSprite s x y n px py ↔ inRows s.mem (effAddr s 0) (s.reg x) (s.reg y) n px py := by
  constructor
  · rintro ⟨row, col, hrow, hcol, hx, hy, hbit⟩
    exact ⟨row, hrow, Fin.ext hy, col, hcol, hbit, Fin.ext hx⟩
  · rintro ⟨row, hrow, rfl, col, hcol, hbit, rfl⟩
    exact ⟨row, col, hrow, hcol, rfl, rfl, hbit⟩

/-- The sprite depends on the two coordinate registers, the index register and memory. -/
theorem underSprite_congr {s t : State} {x y : RegIdx} (hx : t.reg x = s.reg x) (hy : t.reg y = s.reg y)
    (hidx : t.idx = s.idx) (hmem : ∀ a, t.mem.read a = s.mem.read a) (n : Nat) (px : Fin 64) (py : Fin 32) :
    UnderSprite t x y n px py ↔ UnderSprite s x y n px py := by
  simp only [UnderSprite, hx, hy, hidx, hmem]

section
variable (s : State) (x y : RegIdx) (n : Fin 16)

theorem drawSprite_spec :
    (∀ px py, (drawSprite s x y n.val).fb.pixel px py = true ↔
      ((s.fb.pixel px py = false ∧ UnderSprite s x y n.val px py) ∨
        (s.fb.pixel px py = true ∧ ¬ UnderSprite s x y n.val px py))) ∧
    ((drawSprite s x y n.val).hit = true ↔ ∃ px py, UnderSprite s x y n.val px py ∧ s.fb.pixel px py = true) := by
  have hrows : n.val ≤ 32 := by omega
  obtain ⟨hpixel, hhit⟩ :=
    drawRows_spec s.mem (effAddr s 0) (s.reg x) (s.reg y) n.val hrows { fb := s.fb, hit := false }
  simp only [underSprite_iff_inRows]
  exact ⟨hpixel, hhit.trans (or_iff_right Bool.false_ne_true)⟩

theorem pixel_drawSprite_of_under {px : Fin 64} {py : Fin 32} (h : UnderSprite s x y n.val px py) :
    (drawSprite s x y n.val).fb.pixel px py = !(s.fb.pixel px py) := by
  rw [Bool.eq_iff_iff, (drawSprite_spec s x y n).1]
  simp [h]

theorem pixel_drawSprite_of_not_under {px : Fin 64} {py : Fin 32} (h : ¬ UnderSprite s x y n.val px py) :
    (drawSprite s x y n.val).fb.pixel px py = s.fb.pixel px py := by
  rw [Bool.eq_iff_iff, (drawSprite_spec s x y n).1]
  simp [h]

end

theorem collisionFlag_true : collisionFlag true = 0x01#8 := rfl

theorem collisionFlag_false : collisionFlag false = 0x00#8 := rfl

theorem runInRange_of_rows {s : State} {n : Nat} (h : n = 0 ∨ s.idx.toNat + n ≤ 4096) :
    runInRange (effAddr s 0) n = true :=
  (runInRange_iff _ _).mpr h

/-- DRW in range (R203). -/
theorem exec_drw_draws {x y : RegIdx} {n : Fin 16} {s : State} (h : n.val = 0 ∨ s.idx.toNat + n.val ≤ 4096) :
    ∃ t, exec (.drw x y n) s = .next t ∧
      (∀ px py, UnderSprite s x y n.val px py → t.fb.pixel px py = !(s.fb.pixel px py)) ∧
      (∀ px py, ¬ UnderSprite s x y n.val px py → t.fb.pixel px py = s.fb.pixel px py) ∧
      ((∃ px py, UnderSprite s x y n.val px py ∧ s.fb.pixel px py = true) → t.reg 15 = 0x01#8) ∧
      ((¬ ∃ px py, UnderSprite s x y n.val px py ∧ s.fb.pixel px py = true) → t.reg 15 = 0x00#8) ∧
      t.pc = s.pc + 2 ∧ t.reply = .advanced ∧ Keeps { reg := fun r => r = 15, fb := True } s t := by
  have hhit := (drawSprite_spec s x y n).2
  have hkeeps : Keeps { reg := fun r => r = 15, fb := True } s
      ((s.setFb (drawSprite s x y n.val).fb).setFlag (collisionFlag (drawSprite s x y n.val).hit)) :=
    ((Keeps.refl _ s).setFb _ trivial).setFlag _ rfl
  rw [exec_drw_inRange (runInRange_of_rows h)]
  refine ⟨_, advance_eq _, fun px py => pixel_drawSprite_of_under s x y n,
    fun px py => pixel_drawSprite_of_not_under s x y n, fun hcollides => ?_, fun hclear => ?_, rfl, rfl, hkeeps.complete _⟩
  · rw [← collisionFlag_true, ← hhit.mpr hcollides]
    exact State.reg_setFlag_same _ _
  · rw [← collisionFlag_false, ← Bool.eq_false_iff.mpr (mt hhit.mp hclear)]
    exact State.reg_setFlag_same _ _

/-! ## The statements -/

/-- Settles O27: the drawing column by column and row by row is the inversion of the pixels under the sprite. -/
theorem drawInvertsExactlyTheSprite : Obligations.DrawInvertsExactlyTheSprite := by
  unfold Obligations.DrawInvertsExactlyTheSprite
  intro x y n s
  exact ⟨Laws.RoundTrip.drw x y n rfl, exec_drw_draws⟩

/-- Settles O28: the rows are checked before anything is drawn. -/
theorem drawOutOfRangeFaults : Obligations.DrawOutOfRangeFaults := by
  unfold Obligations.DrawOutOfRangeFaults
  intro x y n s hrows hlong
  have hrange : runInRange (effAddr s 0) n.val = false := by
    rw [runInRange_false_iff, effAddr_zero]
    omega
  rw [exec_drw_outOfRange hrange]
  exact raise_latches .outOfBounds s

/-- Settles O29: the second draw has the same sprite, so it inverts the same pixels back, and collides where the first one
turned a pixel on. -/
theorem doubleDrawRestoresScreen : Obligations.DoubleDrawRestoresScreen := by
  unfold Obligations.DoubleDrawRestoresScreen
  intro x y n s t u hx hy hrange hfirst hsecond
  obtain ⟨t', hfirst', hunder, houtside, -, -, -, -, hkeeps⟩ := exec_drw_draws (x := x) (y := y) hrange
  obtain rfl := Host.Outcome.next.inj (hfirst'.symm.trans hfirst)
  have hidx : t'.idx = s.idx := hkeeps.idx id
  have hsame := underSprite_congr (hkeeps.reg x hx) (hkeeps.reg y hy) hidx (fun a => hkeeps.byte a id) n.val
  have hrange' : n.val = 0 ∨ t'.idx.toNat + n.val ≤ 4096 := hidx.symm ▸ hrange
  obtain ⟨u', hsecond', hunder', houtside', hset, hclear, -⟩ := exec_drw_draws (x := x) (y := y) hrange'
  obtain rfl := Host.Outcome.next.inj (hsecond'.symm.trans hsecond)
  have hturnedOn : (∃ px py, UnderSprite t' x y n.val px py ∧ t'.fb.pixel px py = true) ↔
      ∃ px py, UnderSprite s x y n.val px py ∧ s.fb.pixel px py = false := by
    refine exists_congr fun px => exists_congr fun py => ?_
    rw [hsame]
    exact and_congr_right fun h => by rw [hunder px py h, Bool.not_eq_true']
  refine ⟨Framebuffer.ext_pixel fun px py => ?_, fun h => hset (hturnedOn.mpr h), fun h => hclear (mt hturnedOn.mp h)⟩
  by_cases h : UnderSprite s x y n.val px py
  · rw [hunder' px py ((hsame px py).mpr h), hunder px py h, Bool.not_not]
  · rw [houtside' px py (mt (hsame px py).mp h), houtside px py h]

end Sys2Proof.Machine
end

section
/-! What no instruction looks at: the inputs but for their readers, and the timers but for theirs (10_state.md sections 3, 6). -/

namespace Sys2Proof.Machine

/-! ## An update that the operations of the meanings pass over -/

/-- `f` changes a part of the state that no operation of a meaning reads or writes: what they read is as before, and each of
them can be done before `f` as well as after it. -/
structure PassedOver (f : State → State) : Prop where
  regs : ∀ s, (f s).regs = s.regs
  idx : ∀ s, (f s).idx = s.idx
  pc : ∀ s, (f s).pc = s.pc
  sp : ∀ s, (f s).sp = s.sp
  stack : ∀ s, (f s).stack = s.stack
  fb : ∀ s, (f s).fb = s.fb
  mem : ∀ s, (f s).mem = s.mem
  setReg : ∀ s x v, (f s).setReg x v = f (s.setReg x v)
  setRegs : ∀ s regs, (f s).setRegs regs = f (s.setRegs regs)
  setIdx : ∀ s v, (f s).setIdx v = f (s.setIdx v)
  setPc : ∀ s v, (f s).setPc v = f (s.setPc v)
  setFb : ∀ s fb, (f s).setFb fb = f (s.setFb fb)
  setMem : ∀ s m, (f s).setMem m = f (s.setMem m)
  setFault : ∀ s k, (f s).setFault k = f (s.setFault k)
  setReply : ∀ s r, (f s).setReply r = f (s.setReply r)
  push : ∀ s v (h : s.sp.val < Config.stackDepth) (h' : (f s).sp.val < Config.stackDepth), (f s).push v h' = f (s.push v h)
  pop : ∀ s, (f s).pop = f s.pop

theorem passedOver_setPress (p : Option Key) : PassedOver fun s => s.setPress p := by
  constructor <;> intros <;> rfl

theorem passedOver_setKeys (keys : Vector Bool 16) : PassedOver fun s => s.setKeys keys := by
  constructor <;> intros <;> rfl

theorem passedOver_setDt (v : Byte) : PassedOver fun s => s.setDt v := by
  constructor <;> intros <;> rfl

theorem passedOver_setSt (v : Byte) : PassedOver fun s => s.setSt v := by
  constructor <;> intros <;> rfl

namespace PassedOver

variable {f : State → State} (hf : PassedOver f)
include hf

theorem reg (s : State) (x : RegIdx) : (f s).reg x = s.reg x := State.reg_eq_of_regs s (f s) (hf.regs s) x

theorem setFlag (s : State) (v : Byte) : (f s).setFlag v = f (s.setFlag v) := hf.setReg s 15 v

theorem effAddr (s : State) (k : Nat) : effAddr (f s) k = effAddr s k := effAddr_congr (hf.idx s) k

theorem regsUpTo (s : State) (x : RegIdx) : regsUpTo (f s) x = regsUpTo s x := by
  simp only [Machine.regsUpTo, hf.regs]

theorem drawSprite (s : State) (x y : RegIdx) (n : Nat) : drawSprite (f s) x y n = drawSprite s x y n := by
  simp only [Machine.drawSprite, hf.mem, hf.effAddr, hf.reg, hf.fb]

/-! ## How an instruction ends -/

theorem completeAt (target : Word) (s : State) : completeAt target (f s) = mapNext f (completeAt target s) := by
  simp only [Machine.completeAt, mapNext_next, hf.setPc, hf.setReply]

theorem advance (s : State) : advance (f s) = mapNext f (advance s) := by
  simp only [Machine.advance, hf.pc, hf.completeAt]

theorem skipIf (c : Bool) (s : State) : skipIf c (f s) = mapNext f (skipIf c s) := by
  simp only [Machine.skipIf, hf.pc, hf.completeAt]

theorem raise (k : Fault) (s : State) : raise k (f s) = mapNext f (raise k s) := by
  simp only [Machine.raise, mapNext_next, hf.setFault, hf.setReply]

theorem flagThenResult (x : RegIdx) (flag result : Byte) (s : State) :
    flagThenResult x flag result (f s) = mapNext f (flagThenResult x flag result s) := by
  simp only [Machine.flagThenResult, hf.setFlag, hf.setReg, hf.advance]

theorem withRun {a n : Nat} {s : State} {body body' : State → Result} (hbody : body' (f s) = mapNext f (body s)) :
    withRun a n (f s) body' = mapNext f (withRun a n s body) := by
  cases h : runInRange a n with
  | true => rw [withRun_inRange h, withRun_inRange h, hbody]
  | false => rw [withRun_outOfRange h, withRun_outOfRange h, hf.raise]

end PassedOver

/-- The six instructions that read an input or read or write a timer (10_state.md section 6). -/
def usesInputOrTimer : Instr → Bool
  | .skp _ | .sknp _ | .ldVxK _ | .ldVxDt _ | .ldDtVx _ | .ldStVx _ => true
  | _ => false

/-- Every other instruction does the same whatever such a part of the state holds. -/
theorem PassedOver.exec {f : State → State} (hf : PassedOver f) {i : Instr} (hi : usesInputOrTimer i = false) (s : State) :
    exec i (f s) = mapNext f (exec i s) := by
  cases i with
  | skp | sknp | ldVxK | ldVxDt | ldDtVx | ldStVx => cases hi
  | sys | unknown => exact hf.raise _ s
  | ret =>
    have hsp := congrArg Fin.val (hf.sp s)
    by_cases h : s.sp.val = 0
    · rw [exec_ret_of_empty h, exec_ret_of_empty (hsp.trans h), hf.raise]
    · rw [exec_ret_of_nonempty h, exec_ret_of_nonempty (hsp ▸ h), State.top_congr (hf.sp s) (hf.stack s), hf.pop,
        hf.completeAt]
  | call nnn =>
    have hsp := congrArg Fin.val (hf.sp s)
    by_cases h : s.sp.val = 16
    · rw [exec_call_of_full nnn h, exec_call_of_full nnn (hsp.trans h), hf.raise]
    · have hroom := sp_lt_of_ne_full h
      rw [exec_call_of_room nnn hroom, exec_call_of_room nnn (hsp ▸ hroom), hf.push s _ hroom, hf.pc, hf.completeAt]
  | jp nnn => exact hf.completeAt _ s
  | jpV0 nnn => rw [exec_jpV0, exec_jpV0, hf.reg, hf.completeAt]
  | seImm | sneImm | seReg | sneReg =>
    simp only [Machine.exec, execSeImm, execSneImm, execSeReg, execSneReg, hf.reg, hf.skipIf]
  | ldImm | addImm | ldReg | or | and | xor =>
    simp only [Machine.exec, execLdImm, execAddImm, execLdReg, execOr, execAnd, execXor, hf.reg, hf.setReg, hf.advance]
  | addReg | sub | shr | subn | shl =>
    simp only [Machine.exec, execAddReg, execSub, execShr, execSubn, execShl, hf.reg, hf.flagThenResult]
  | ldI | addI | ldF =>
    simp only [Machine.exec, execLdI, execAddI, execLdF, hf.reg, hf.idx, hf.setIdx, hf.advance]
  | cls => simp only [Machine.exec, execCls, hf.setFb, hf.advance]
  | drw x y n =>
    simp only [Machine.exec, execDrw, hf.effAddr]
    exact hf.withRun (by simp only [hf.drawSprite, hf.setFb, hf.setFlag, hf.advance])
  | ldB x =>
    simp only [Machine.exec, execLdB, hf.effAddr]
    exact hf.withRun (by simp only [hf.effAddr, hf.reg, hf.mem, hf.setMem, hf.advance])
  | stRegs x =>
    simp only [Machine.exec, execStRegs, hf.effAddr]
    exact hf.withRun (by simp only [hf.effAddr, hf.regsUpTo, hf.mem, hf.setMem, hf.advance])
  | ldRegs x =>
    simp only [Machine.exec, execLdRegs, hf.effAddr]
    exact hf.withRun (by simp only [hf.effAddr, hf.regs, hf.mem, hf.setRegs, hf.advance])

/-! ## The inputs and the timers, each with its readers left out -/

/-- The key wait goes by the press alone. -/
theorem exec_ldVxK_of_same_press {f : State → State} (hf : PassedOver f) {s : State} (hpress : (f s).press = s.press)
    (x : RegIdx) : exec (.ldVxK x) (f s) = mapNext f (exec (.ldVxK x) s) := by
  cases hp : s.press with
  | none => rw [exec_ldVxK_of_no_press hp, exec_ldVxK_of_no_press (hpress.trans hp), block_eq, block_eq, hf.setReply,
      mapNext_next]
  | some k => rw [exec_ldVxK_of_press hp, exec_ldVxK_of_press (hpress.trans hp), hf.setReg, hf.advance]

theorem exec_setPress {i : Instr} (h : ∀ x, i ≠ .ldVxK x) (s : State) (p : Option Key) :
    exec i (s.setPress p) = mapNext (fun t => t.setPress p) (exec i s) := by
  cases i with
  | ldVxK x => exact absurd rfl (h x)
  | skp | sknp | ldVxDt | ldDtVx | ldStVx => rfl
  | _ => exact (passedOver_setPress p).exec rfl s

theorem exec_setKeys {i : Instr} (h : ∀ x, i ≠ .skp x ∧ i ≠ .sknp x) (s : State) (keys : Vector Bool 16) :
    exec i (s.setKeys keys) = mapNext (fun t => t.setKeys keys) (exec i s) := by
  cases i with
  | skp x => exact absurd rfl (h x).1
  | sknp x => exact absurd rfl (h x).2
  | ldVxK x => exact exec_ldVxK_of_same_press (passedOver_setKeys keys) rfl x
  | ldVxDt | ldDtVx | ldStVx => rfl
  | _ => exact (passedOver_setKeys keys).exec rfl s

theorem exec_setSt {i : Instr} (h : ∀ x, i ≠ .ldStVx x) (s : State) (v : Byte) :
    exec i (s.setSt v) = mapNext (fun t => t.setSt v) (exec i s) := by
  cases i with
  | ldStVx x => exact absurd rfl (h x)
  | ldVxK x => exact exec_ldVxK_of_same_press (passedOver_setSt v) rfl x
  | skp | sknp | ldVxDt | ldDtVx => rfl
  | _ => exact (passedOver_setSt v).exec rfl s

theorem exec_setDt {i : Instr} (h : ∀ x, i ≠ .ldDtVx x ∧ i ≠ .ldVxDt x) (s : State) (v : Byte) :
    exec i (s.setDt v) = mapNext (fun t => t.setDt v) (exec i s) := by
  cases i with
  | ldDtVx x => exact absurd rfl (h x).1
  | ldVxDt x => exact absurd rfl (h x).2
  | ldVxK x => exact exec_ldVxK_of_same_press (passedOver_setDt v) rfl x
  | skp | sknp | ldStVx => rfl
  | _ => exact (passedOver_setDt v).exec rfl s

/-! ## The statements -/

/-- Settles O46: the press is passed over by all but the key wait, the key states by all but the key skips. -/
theorem inputsReachOnlyTheirReaders : Obligations.InputsReachOnlyTheirReaders := by
  unfold Obligations.InputsReachOnlyTheirReaders
  exact fun i s p keys => ⟨fun h => exec_setPress h s p, fun h => exec_setKeys h s keys⟩

/-- Settles O47: each timer is passed over by all but its own instructions, and a setter overwrites what it held. -/
theorem timersAreReadOnlyByFx07 : Obligations.TimersAreReadOnlyByFx07 := by
  unfold Obligations.TimersAreReadOnlyByFx07
  exact fun i s v => ⟨fun h => exec_setSt h s v, fun h => exec_setDt h s v, fun _ => rfl, fun _ => rfl⟩

end Sys2Proof.Machine
end
